-- ==== Sys2Proof/Word.lean ====
section
/-! DEFINITION. The widths of the hardware's values (00_scope.md R1, 10_state.md R10): 13-bit words, 10-bit addresses,
3-bit opcodes, and the eight mnemonics of the opcode map (30_encoding.md R53). -/

namespace Sys2Proof

/-- A 13-bit word: a memory cell's value, `MBR`, `AC`, `MQ` (R1, R10). Always unsigned (R85). -/
abbrev Word := BitVec 13

/-- A 10-bit address: `PC`, `MAR`, an operand field (R1, R31). -/
abbrev Addr := BitVec 10

/-- A 3-bit opcode: `IR`, bits 12 to 10 of an instruction word (R1, R50). -/
abbrev Opcode := BitVec 3

/-- The mnemonics of the opcode map (30_encoding.md R53), in opcode order. -/
inductive Mnemonic where
  | SUB | LOAD | MUL | DIV | LDMQ | HALT | ADD | ST
  deriving DecidableEq, Repr

end Sys2Proof
end

