-- ==== Sys2Proof/Syntax.lean ====
section
/-! DEFINITION. The instruction set: eight instructions, one format, one operand form, a direct 10-bit address
(30_encoding.md R50, R52, R53). -/

namespace Sys2Proof

/-- One constructor per row of the opcode table, in opcode order. Each carries its whole 10-bit field `X`. -/
inductive Instr where
  /-- opcode 000, R87 -/
  | sub (x : Addr)
  /-- opcode 001, R80 -/
  | load (x : Addr)
  /-- opcode 010, R88 -/
  | mul (x : Addr)
  /-- opcode 011, R89 and R90 -/
  | div (x : Addr)
  /-- opcode 100, R81 -/
  | ldmq (x : Addr)
  /-- opcode 101, R95. The field is ignored by the execute step (R55) but is a part of the word: the decode step leaves
  it in `MAR`. -/
  | halt (x : Addr)
  /-- opcode 110, R86 -/
  | add (x : Addr)
  /-- opcode 111, R82 (also written `STORE`) -/
  | st (x : Addr)
  deriving DecidableEq, Repr

end Sys2Proof
end

