-- ==== Sys2Proof/WellFormed.lean ====
section
/-! DEFINITION. What is well formed: an instruction, the string form of a value (00_scope.md R7), a line of this spec's
assembly notation (30_encoding.md R58) and an entry of a program image (R57). An instruction's operand is a 10-bit
vector, so no ill-formed instruction can be written; the checks that a term can fail are those on text and on numbers. -/

namespace Sys2Proof

/-- The 10-bit field `X` of an instruction (30_encoding.md R50). -/
def Instr.operand : Instr → Addr
  | .sub x => x
  | .load x => x
  | .mul x => x
  | .div x => x
  | .ldmq x => x
  | .halt x => x
  | .add x => x
  | .st x => x

/-- The mnemonic of an instruction (R53). -/
def Instr.mnemonic : Instr → Mnemonic
  | .sub _ => .SUB
  | .load _ => .LOAD
  | .mul _ => .MUL
  | .div _ => .DIV
  | .ldmq _ => .LDMQ
  | .halt _ => .HALT
  | .add _ => .ADD
  | .st _ => .ST

/-- The operand fits its field (R52: 0 to 1023). The type of the field already says so. -/
def Instr.wellFormed (i : Instr) : Bool := i.operand.toNat < 1024

/-- One character of the string form: `0` or `1` (R7). -/
def isBit (c : Char) : Bool := c == '0' || c == '1'

/-- A well-formed `width`-bit binary string: exactly `width` characters, each `0` or `1` (R7). -/
def wellFormedText (width : Nat) (cs : List Char) : Bool := cs.length == width && cs.all isBit

/-- A line of the spec's own assembly notation (R58): `MNEMONIC X`, `HALT` alone, or `.word v`, with decimal operands. -/
inductive AsmLine where
  | direct (m : Mnemonic) (x : Nat)
  | haltAlone
  | word (v : Nat)
  deriving DecidableEq, Repr

/-- The operand is an address (0 to 1023), the data word a 13-bit value (0 to 8191). -/
def AsmLine.wellFormed : AsmLine → Bool
  | .direct _ x => x < 1024
  | .haltAlone => true
  | .word v => v < 8192

/-- An entry of a program image: an address of the program space, 0 to 999 (R57, R142), and a 13-bit word. -/
def imageEntryOk (p : Nat × Word) : Bool := p.1 < 1000

end Sys2Proof
end

