-- ==== Sys2Proof/Decode.lean ====
section
/-! DEFINITION. The word/register codec (00_scope.md R7), the decoder (30_encoding.md R50 to R56, R59) and the encoder. -/

namespace Sys2Proof

/-! ### The codec -/

/-- The integer a digit character stands for. -/
def bitValue (c : Char) : Nat := if c == '1' then 1 else 0

/-- `binaryToDecimal`: a string of `0` and `1`, most significant bit first, as an integer (R7). -/
def binaryToDecimal (cs : List Char) : Nat := cs.foldl (fun n c => 2 * n + bitValue c) 0

/-- `decimalToBinary`: the low `width` bits of an integer as `width` characters, most significant first, padded on the
left with `0` (R7). -/
def decimalToBinary : (width : Nat) → Nat → List Char
  | 0, _ => []
  | k + 1, v => (if v / 2 ^ k % 2 = 1 then '1' else '0') :: decimalToBinary k v

/-! ### The decoder -/

/-- `w[12:10]` (R50). -/
def opcodeField (w : Word) : Opcode := w.extractLsb' 10 3

/-- `w[9:0]` (R50, R52). -/
def addrField (w : Word) : Addr := w.extractLsb' 0 10

/-- Why decoding rejects, each by name. Neither happens to a 13-bit word (R54, R59). -/
inductive DecodeError where
  /-- R59, R113 `DecodeWidthViolation`: the value is not exactly 13 bits wide. -/
  | widthViolation
  /-- R96, R112 `UnknownOpcode`: the opcode is none of the eight codes. -/
  | unknownOpcode (op : Opcode)
  deriving DecidableEq, Repr

/-- What decoding answers. -/
inductive Decoded where
  | instr (i : Instr)
  | rejected (e : DecodeError)
  deriving DecidableEq, Repr

/-- The opcode map of R53: the instruction an opcode and an operand field stand for. The last arm is the source's
"unknown opcode" row, which no 3-bit opcode selects (R54, 90_conflicts.md C2). -/
def decodeFields (op : Opcode) (x : Addr) : Decoded :=
  match op.toNat with
  | 0 => .instr (.sub x)
  | 1 => .instr (.load x)
  | 2 => .instr (.mul x)
  | 3 => .instr (.div x)
  | 4 => .instr (.ldmq x)
  | 5 => .instr (.halt x)
  | 6 => .instr (.add x)
  | 7 => .instr (.st x)
  | _ => .rejected (.unknownOpcode op)

/-- Decoding is a pure function of the word only (R51). -/
def decode (w : Word) : Decoded := decodeFields (opcodeField w) (addrField w)

/-- Decoding the string form: a value that is not exactly 13 bits is rejected by name (R59). -/
def decodeText (cs : List Char) : Decoded :=
  if wellFormedText 13 cs then decode (BitVec.ofNat 13 (binaryToDecimal cs)) else .rejected .widthViolation

/-- The instruction read, if any. -/
def Decoded.toOption : Decoded → Option Instr
  | .instr i => some i
  | .rejected _ => none

/-- The decoder on a word numbered as spec/opcode_table.json numbers it. A memory cell is 13 bits wide, so a number that
does not fit 13 bits is no instruction word (R50, R59). -/
def decodeTableWord (nbits w : Nat) : Option Instr :=
  if w % 2 ^ nbits < 8192 then (decode (BitVec.ofNat 13 (w % 2 ^ nbits))).toOption else none

/-! ### The encoder -/

/-- The opcode column of R53. -/
def Mnemonic.opcode : Mnemonic → Opcode
  | .SUB => 0b000#3
  | .LOAD => 0b001#3
  | .MUL => 0b010#3
  | .DIV => 0b011#3
  | .LDMQ => 0b100#3
  | .HALT => 0b101#3
  | .ADD => 0b110#3
  | .ST => 0b111#3

/-- The word of an instruction: opcode in bits 12 to 10, `X` in bits 9 to 0 (R50), as the integer identity
`w = opcode * 1024 + X` (R51, R58). -/
def encode (i : Instr) : Word := BitVec.ofNat 13 (i.mnemonic.opcode.toNat * 1024 + i.operand.toNat)

/-- The word of a line of the spec's notation, `opcode * 1024 + X` (R58); an ill-formed line has none. -/
def AsmLine.assemble (l : AsmLine) : Option Word :=
  if l.wellFormed then
    match l with
    | .direct m x => some (BitVec.ofNat 13 (m.opcode.toNat * 1024 + x))
    | .haltAlone => some (BitVec.ofNat 13 (Mnemonic.HALT.opcode.toNat * 1024))
    | .word v => some (BitVec.ofNat 13 v)
  else none

end Sys2Proof
end

