-- ==== Sys2Proof/Config.lean ====
section
/-! DEFINITION. What is fixed for the machine: the parameter table of 00_scope.md section 4, one constant a row.
The rows the table calls OPEN are: `GRANULARITY` (here, default coarse), `INT_ID` (here), `MAX_STEPS` (an argument of the
driver, Machine/Environment.lean) and `MEM_INIT` (an argument of `State.resetWith`, Machine/State.lean). The spec leaves no
value free: every open value is decided in 92_eei_decisions.md, so this file holds no opaque constant. -/

namespace Sys2Proof.Config

/-- `MEM_SIZE`: the number of cells, addresses 0 to 1003 (R21, R31). -/
def memSize : Nat := 1004

/-- `PROG_SPACE`: the program space is 0 to 999, and the modulus of the PC advance (R32, R67). -/
def progSpace : Nat := 1000

/-- `ADDR_RESERVED0`: unused, reserved; an ordinary cell (R32). -/
def addrReserved0 : Nat := 1000

/-- `ADDR_SAVED_PC`: where the interrupt service saves `PC` (R32, R120 step 1). -/
def addrSavedPc : Nat := 1001

/-- `ADDR_ISR`: the interrupt service word (R32, R120 step 3). -/
def addrIsr : Nat := 1002

/-- `ADDR_COUNTER`: the interrupt counter (R32, R120 steps 2 and 5). -/
def addrCounter : Nat := 1003

/-- `DEFAULT_ISR_WORD`: `ADD 1003`, used when cell 1002 is empty (R122; 92_eei_decisions.md D10). -/
def defaultIsrWord : Word := 0b1101111101011#13

/-- The entry point after reset: a fixed address, there is no reset vector (R27, R140). -/
def entryPoint : Addr := 0#10

/-- The two pacings of the one engine (44_microsteps.md R100). -/
inductive Granularity where
  | coarse
  | fine
  deriving DecidableEq, Repr

/-- `GRANULARITY`, an open parameter whose default is coarse (00_scope.md section 4, R100): DESIGN CHOICE, log entry 4. -/
def granularity : Granularity := .coarse

/-- `INT_ID`, an open type parameter: opaque tokens the core never inspects (R22, R116). The model takes the natural
numbers: DESIGN CHOICE, log entry 3. -/
abbrev IntId := Nat

/-- The source's example value of the driver's `MAX_STEPS` (R145, D16); the driver takes the cap as an argument. -/
def exampleMaxSteps : Nat := 10000

end Sys2Proof.Config
end

