-- ==== Sys2Proof/Machine/State.lean ====
section
/-! DEFINITION. The state of the core (10_state.md), the reasons a step can stop, and the state after reset (R27). -/

namespace Sys2Proof.Machine

/-- The phase sequencer's five values (R19). An enumeration: the spec gives no encoding in bits. -/
inductive Phase where
  | idle | fetch | decode | execute | halted
  deriving DecidableEq, Repr

/-- The trace events of R24, with the fields the source requires them to carry. -/
inductive TraceEvent where
  /-- the idle step -/
  | start
  /-- the fetch step -/
  | fetch
  /-- the decode step -/
  | decode
  /-- `Exec(m)`: the execute step of `m` completed normally -/
  | exec (m : Mnemonic)
  /-- `DIV` with a zero divisor (R90, R111) -/
  | divByZero
  /-- the unknown-opcode fallback (R96, R112) -/
  | unknownOpcode
  /-- `HALT` (R95) -/
  | halt
  /-- an interrupt service: the identifier, the saved `PC`, the new counter (R120 step 6) -/
  | interrupt (id : Config.IntId) (savedPc : Addr) (counter : Word)
  /-- emitted by the driver, not by the core (R115, R145) -/
  | limitReached
  /-- fine granularity only: a micro-step that is not the last of its phase. The spec names no tag for it:
  DESIGN CHOICE, log entry 8 -/
  | micro
  deriving DecidableEq, Repr

/-- The memory array (R21): the present cells, as (address, value) pairs. ONE canonical form, `Memory.wf`. A cell that is
not listed is `empty`, which is state of its own and not the value 0 (R21). -/
abbrev Memory := List (Nat × Word)

/-- What an unlisted address holds: nothing, the cell is empty (R21). A listed cell is present, so no entry can equal it. -/
def Memory.unlisted : Option Word := none

/-- The canonical form: addresses strictly rising, each the address of a cell (R31). -/
abbrev Memory.wf (m : Memory) : Prop :=
  m.Pairwise (fun p q => p.1 < q.1) ∧ ∀ p ∈ m, p.1 < Config.memSize

/-- Everything the spec gives the core: "Nothing else is state" (10_state.md). -/
structure State where
  /-- program counter, the address of the next instruction (R16) -/
  pc : Addr
  /-- memory address register (R14) -/
  mar : Addr
  /-- memory buffer register (R13) -/
  mbr : Word
  /-- instruction register: the opcode only (R15) -/
  ir : Opcode
  /-- accumulator (R11) -/
  ac : Word
  /-- multiplier-quotient (R12) -/
  mq : Word
  /-- the phase sequencer (R19) -/
  phase : Phase
  /-- the sub-step cursor of the fine granularity (R20, R102); 0 throughout with the coarse one -/
  cursor : Nat
  /-- the memory array (R21) -/
  mem : Memory
  /-- the pending-interrupt queue, head first (R22) -/
  pending : List Config.IntId
  /-- the resolved count (R23) -/
  resolved : Nat
  /-- the trace stream, oldest event first (R24); an output, no rule reads it -/
  trace : List TraceEvent
  deriving DecidableEq, Repr

/-- The reasons the core stops. -/
inductive Fault where
  /-- `StoreRangeFault(X)` (R36, R114): raised by `ST X` for `X` in 1004 to 1023, and by nothing else. No cell and no
  register is written. Safe: the spec's own decision (D6) where the source is silent; no claim about such a store can be
  proved of the hardware. -/
  | storeRange (x : Addr)
  deriving DecidableEq, Repr

/-- The reasons the model gives an instruction no meaning. -/
inductive Refusal where
  /-- An arm of `exec` that has no meaning yet would raise it. No arm does: all eight instructions are modelled. Safe. -/
  | notModelled (mnemonic : String)
  deriving DecidableEq, Repr

/-- The state after reset over a memory image `MEM_INIT` (R27). -/
def State.resetWith (image : Memory) : State where
  pc := Config.entryPoint
  mar := 0#10
  mbr := 0#13
  ir := 0#3
  ac := 0#13
  mq := 0#13
  phase := .idle
  cursor := 0
  mem := image
  pending := []
  resolved := 0
  trace := []

/-- The machine right after reset (R27). `MEM_INIT` is the host's to supply and the model takes the memory with every cell
empty: DESIGN CHOICE, log entry 2. -/
def State.reset : State := State.resetWith []

end Sys2Proof.Machine
end

