-- ==== Sys2Proof/Machine/Ops.lean ====
section
/-! DEFINITION. The named operations over memory, registers and phase, and the interrupt service, the one way an
exception is taken (20_memory.md, 40_engine_cycle.md R67, 60_exceptions.md R120). -/

namespace Sys2Proof.Machine

/-! ### Memory -/

/-- The content of an address in the list form: a value, or empty. -/
def Memory.cell : Memory → Nat → Option Word
  | [], _ => Memory.unlisted
  | (b, w) :: rest, a => if b = a then some w else Memory.cell rest a

/-- Make the cell at `a` present with value `v`, keeping the addresses rising. -/
def Memory.write : Memory → Nat → Word → Memory
  | [], a, v => [(a, v)]
  | (b, w) :: rest, a, v =>
    if a < b then (a, v) :: (b, w) :: rest
    else if a = b then (a, v) :: rest
    else (b, w) :: Memory.write rest a v

/-- `MemCell(a)` (R21): the raw content of cell `a`. There is no cell at 1004 and above (R31). -/
def State.memCell (s : State) (a : Nat) : Option Word :=
  if a < Config.memSize then Memory.cell s.mem a else Memory.unlisted

/-- `MemRead(addr, 13)`: the value of a present cell, the all-zero word for an empty cell (R33) and for an address that
names no cell (R34). The one read path of fetch, operand and service. -/
def State.memRead (s : State) (a : Addr) : Word := (s.memCell a.toNat).getD 0#13

/-- Write a cell that exists. -/
def State.setCell (s : State) (a : Nat) (v : Word) : State := { s with mem := Memory.write s.mem a v }

/-- `MemWrite(addr, 13, v)`: makes cell `addr` present with value `v` (R35); an address that names no cell raises
`StoreRangeFault` and writes nothing (R36). -/
def State.memWrite (s : State) (a : Addr) (v : Word) : Host.Outcome State Fault Refusal :=
  if a.toNat < Config.memSize then .next (s.setCell a.toNat v) else .fault (.storeRange a)

/-! ### Registers -/

/-- `MAR <- v` (R14) -/
def State.setMar (s : State) (v : Addr) : State := { s with mar := v }

/-- `MBR <- v` (R13) -/
def State.setMbr (s : State) (v : Word) : State := { s with mbr := v }

/-- `IR <- v` (R15) -/
def State.setIr (s : State) (v : Opcode) : State := { s with ir := v }

/-- `AC <- v` (R11) -/
def State.setAc (s : State) (v : Word) : State := { s with ac := v }

/-- `MQ <- v` (R12) -/
def State.setMq (s : State) (v : Word) : State := { s with mq := v }

/-- `pc <- v` (R16) -/
def State.setPc (s : State) (v : Addr) : State := { s with pc := v }

/-! ### Trace, phase and program counter -/

/-- `trace(e)`: append one event to the output stream (R24). -/
def State.emit (s : State) (e : TraceEvent) : State := { s with trace := s.trace ++ [e] }

/-- `phase <- p`. The sub-step cursor takes its initial value, 0, whenever the phase changes (R20, R102). -/
def State.enterPhase (s : State) (p : Phase) : State := { s with phase := p, cursor := 0 }

/-- `NextPC(p) = (p + 1) mod 1000`, on the integer value, written back as 10 bits (R67). -/
def nextPC (p : Addr) : Addr := BitVec.ofNat 10 ((p.toNat + 1) % Config.progSpace)

/-- The end of every execute step but `HALT` and a faulting `ST`: `pc <- NextPC(PC)`, `phase <- fetch` (R66 to R68). -/
def State.advance (s : State) : State := (s.setPc (nextPC s.pc)).enterPhase .fetch

/-- An instruction completes normally: `trace(Exec(m))`, then the program counter and the phase move on (R66, R68). -/
def State.complete (s : State) (m : Mnemonic) : State := (s.emit (.exec m)).advance

/-! ### Conditions: recorded in the trace, transferring no control (R110)

There is no trap: no vector, no cause register, no saved state for a synchronous event. -/

/-- `DivideByZero`: a trace event, and the machine goes on as if the instruction had completed (R90, R111). -/
def State.raiseDivideByZero (s : State) : State := (s.emit .divByZero).advance

/-- `UnknownOpcode`: a trace event, and the machine goes on (R96, R112). No 3-bit opcode reaches it (R54). -/
def State.raiseUnknownOpcode (s : State) : State := (s.emit .unknownOpcode).advance

/-! ### Taking an interrupt: the service sequence of R120

One shared operation, in one tick, its steps in the order written, each seeing the writes of those before it. There is no
return from interrupt: `PC` never leaves the interrupted program and the saved `PC` is never read back (R124). -/

/-- Step 1: save the zero-extended `PC` in cell 1001 (D9). -/
def State.savePc (s : State) : State := s.setCell Config.addrSavedPc (s.pc.setWidth 13)

/-- Step 2: an empty counter cell 1003 becomes 0. -/
def State.initCounter (s : State) : State :=
  match s.memCell Config.addrCounter with
  | none => s.setCell Config.addrCounter 0#13
  | some _ => s

/-- Step 3: the service word, cell 1002 or the default where that cell is empty; cell 1002 is not written (R122, D10). -/
def State.serviceWord (s : State) : Word := (s.memCell Config.addrIsr).getD Config.defaultIsrWord

/-- Step 4: the service word is executed as an ADD whatever its opcode bits (D11): `AC <- (AC + Mem(w[9:0])) mod 2^13`. -/
def State.addServiceOperand (s : State) : State :=
  s.setAc (BitVec.ofNat 13 (s.ac.toNat + (s.memRead (addrField s.serviceWord)).toNat))

/-- Step 5: cell 1003 plus 1, modulo 2^13, whatever step 4 read. -/
def State.countInterrupt (s : State) : State :=
  s.setCell Config.addrCounter (BitVec.ofNat 13 (((s.memCell Config.addrCounter).getD 0#13).toNat + 1))

/-- Step 6: dequeue the head, count it as resolved, name it, the saved `PC` and the new counter in the trace. -/
def State.retireInterrupt (s : State) : State :=
  match s.pending with
  | [] => s
  | id :: rest =>
    State.emit { s with pending := rest, resolved := s.resolved + 1 }
      (.interrupt id s.pc ((s.memCell Config.addrCounter).getD 0#13))

/-- `ServiceInterrupt` (R120). Step 7: nothing else; the phase stays `fetch` and `PC` is not changed. -/
def State.serviceInterrupt (s : State) : State :=
  s.savePc.initCounter.addServiceOperand.countInterrupt.retireInterrupt

end Sys2Proof.Machine
end

