-- ==== Sys2Proof/Machine/Operands.lean ====
section
/-! DEFINITION. The one operand form, a direct memory address (30_encoding.md R52, 41_data_transfer.md R83), and the
arithmetic unit (42_arithmetic.md R85): operands as unsigned integers, computed exactly, narrowed at the end (R2). -/

namespace Sys2Proof.Machine

/-- The effective address of field `X`: `X` itself, with no base, index, scaling or indirection (R83). -/
def effectiveAddr (x : Addr) : Addr := x

/-- `m = Mem(X) = MemRead(X, 13)`: the memory operand (R52). -/
def State.operand (s : State) (x : Addr) : Word := s.memRead (effectiveAddr x)

/-- `(a + m) mod 2^13` (R86) -/
def aluAdd (a m : Word) : Word := BitVec.ofNat 13 (a.toNat + m.toNat)

/-- `(a - m) mod 2^13`: an exact integer difference, wrapped, not negative (R85, R87) -/
def aluSub (a m : Word) : Word := BitVec.ofInt 13 ((a.toNat : Int) - (m.toNat : Int))

/-- The exact 26-bit product (R85, R88). -/
def aluProduct (a m : Word) : Nat := a.toNat * m.toNat

/-- `p[12:0]`, the low half of the product (R88) -/
def aluMulLow (a m : Word) : Word := BitVec.ofNat 13 (aluProduct a m)

/-- `p[25:13]`, the high half of the product (R88) -/
def aluMulHigh (a m : Word) : Word := BitVec.ofNat 13 (aluProduct a m / 8192)

/-- `a div m`, the floor quotient (R89); asked only of a non-zero `m` (R90) -/
def aluQuotient (a m : Word) : Word := BitVec.ofNat 13 (a.toNat / m.toNat)

/-- `a rem m`, the remainder of the same division (R89, D7); asked only of a non-zero `m` (R90) -/
def aluRemainder (a m : Word) : Word := BitVec.ofNat 13 (a.toNat % m.toNat)

end Sys2Proof.Machine
end

