-- ==== Sys2Proof/Machine/Flags.lean ====
section
/-! DEFINITION. The core has no flags, no condition codes and no predicates (10_state.md R18, 42_arithmetic.md R91): no
instruction writes or tests one, and nothing is computed here for one. The only tests on data that any instruction makes
(R150) are `DIV`'s zero check, below, and `ST`'s range check, which is `State.memWrite`'s (Machine/Ops.lean). -/

namespace Sys2Proof.Machine

/-- `DIV`'s zero check: the divisor read is zero, so `DivideByZero` is raised (R90). -/
def divisorIsZero (m : Word) : Bool := m == 0#13

end Sys2Proof.Machine
end

