-- ==== Sys2Proof/Machine/Arithmetic.lean ====
section
/-! DEFINITION. `ADD`, `SUB`, `MUL`, `DIV` (42_arithmetic.md). -/

namespace Sys2Proof.Machine

/-- `AC <- (AC + m) mod 2^13` (R86). -/
def effectAdd (x : Addr) (s : State) : State := s.setAc (aluAdd s.ac (s.operand x))

/-- `ADD X` (R86). -/
def execAdd (x : Addr) (s : State) : Host.Outcome State Fault Refusal := .next ((effectAdd x s).complete .ADD)

/-- `AC <- (AC - m) mod 2^13` (R87). -/
def effectSub (x : Addr) (s : State) : State := s.setAc (aluSub s.ac (s.operand x))

/-- `SUB X` (R87). -/
def execSub (x : Addr) (s : State) : Host.Outcome State Fault Refusal := .next ((effectSub x s).complete .SUB)

/-- `AC <- p[12:0]` and `MQ <- p[25:13]` of the product of the old `AC` and `m`, simultaneously (R88). -/
def effectMul (x : Addr) (s : State) : State :=
  (s.setAc (aluMulLow s.ac (s.operand x))).setMq (aluMulHigh s.ac (s.operand x))

/-- `MUL X` (R88). -/
def execMul (x : Addr) (s : State) : Host.Outcome State Fault Refusal := .next ((effectMul x s).complete .MUL)

/-- `AC <- AC div m` and `MQ <- AC rem m`, both of the old `AC` (R89, D7). -/
def effectDiv (x : Addr) (s : State) : State :=
  (s.setAc (aluQuotient s.ac (s.operand x))).setMq (aluRemainder s.ac (s.operand x))

/-- `DIV X` (R89); with a zero divisor no data register is written and the machine goes on (R90). -/
def execDiv (x : Addr) (s : State) : Host.Outcome State Fault Refusal :=
  if divisorIsZero (s.operand x) then .next s.raiseDivideByZero
  else .next ((effectDiv x s).complete .DIV)

end Sys2Proof.Machine
end

