-- ==== Sys2Proof/Machine/Control.lean ====
section
/-! DEFINITION. `HALT` and the unknown-opcode fallback (43_control.md). There is no branch, no call, no return and no
system instruction (R97, R99). -/

namespace Sys2Proof.Machine

/-- `HALT` (R95): `phase <- halted`, `trace(Halt)`; `PC` is not advanced and the field is ignored (R55). -/
def execHalt (s : State) : Host.Outcome State Fault Refusal := .next ((s.emit .halt).enterPhase .halted)

/-- The default arm of the execute dispatch (R96), which no 3-bit opcode reaches (R54). -/
def execUnknown (s : State) : Host.Outcome State Fault Refusal := .next s.raiseUnknownOpcode

end Sys2Proof.Machine
end

