-- ==== Sys2Proof/Machine/DataTransfer.lean ====
section
/-! DEFINITION. `LOAD`, `LDMQ`, `ST` (41_data_transfer.md). Each instruction has its effect on the data registers and
memory (shared by both granularities, R100) and its whole execute step. -/

namespace Sys2Proof.Machine

/-- `MBR <- MemRead(X, 13); AC <- MBR`: `MBR` is the staging register (R80). -/
def effectLoad (x : Addr) (s : State) : State := (s.setMbr (s.operand x)).setAc (s.operand x)

/-- `LOAD X` (R80). -/
def execLoad (x : Addr) (s : State) : Host.Outcome State Fault Refusal := .next ((effectLoad x s).complete .LOAD)

/-- `MQ <- MemRead(X, 13)` (R81). -/
def effectLdmq (x : Addr) (s : State) : State := s.setMq (s.operand x)

/-- `LDMQ X` (R81). -/
def execLdmq (x : Addr) (s : State) : Host.Outcome State Fault Refusal := .next ((effectLdmq x s).complete .LDMQ)

/-- The store's effect on memory, for an address that names a cell; none otherwise (R82). -/
def effectSt (x : Addr) (s : State) : State :=
  match s.memWrite (effectiveAddr x) s.ac with
  | .next t => t
  | .fault _ => s
  | .refused _ => s

/-- `ST X` (R82): `MemWrite(X, 13, AC)`. A store to an address that names no cell stops the core with nothing written
(R36, R114), and no trace event: R24 names no tag for it and R82 gives none, though R5 and R62 speak of one or more a tick or
step: DESIGN CHOICE, log entry 9. -/
def execSt (x : Addr) (s : State) : Host.Outcome State Fault Refusal :=
  match s.memWrite (effectiveAddr x) s.ac with
  | .next t => .next (t.complete .ST)
  | .fault r => .fault r
  | .refused r => .refused r

end Sys2Proof.Machine
end

