-- ==== Sys2Proof/Machine/Dispatch.lean ====
section
/-! DEFINITION. The execute dispatch (40_engine_cycle.md R66): one arm per instruction, in opcode order. -/

namespace Sys2Proof.Machine

def exec (i : Instr) (s : State) : Host.Outcome State Fault Refusal :=
  match i with
  | .sub x => Sys2Proof.Machine.execSub x s
  | .load x => Sys2Proof.Machine.execLoad x s
  | .mul x => Sys2Proof.Machine.execMul x s
  | .div x => Sys2Proof.Machine.execDiv x s
  | .ldmq x => Sys2Proof.Machine.execLdmq x s
  | .halt _ => Sys2Proof.Machine.execHalt s
  | .add x => Sys2Proof.Machine.execAdd x s
  | .st x => Sys2Proof.Machine.execSt x s

end Sys2Proof.Machine
end

