-- ==== Sys2Proof/Machine/Engine.lean ====
section
/-! DEFINITION. The fetch-decode-execute engine with the coarse granularity: what one `Tick` does in each phase
(40_engine_cycle.md). -/

namespace Sys2Proof.Machine

/-- Idle step (R63): no register and no memory cell changes. -/
def idleStep (s : State) : State := (s.emit .start).enterPhase .fetch

/-- Fetch step (R64): `MAR <- PC`, `MBR <- MemRead(PC, 13)`. `PC` is not incremented here. -/
def fetchStep (s : State) : State :=
  (((s.setMar s.pc).setMbr (s.memRead s.pc)).emit .fetch).enterPhase .decode

/-- Decode step (R65): `IR <- MBR[12:10]` and `MAR <- MBR[9:0]`, simultaneously. -/
def decodeStep (s : State) : State :=
  (((s.setIr (opcodeField s.mbr)).setMar (addrField s.mbr)).emit .decode).enterPhase .execute

/-- Execute step (R66): the opcode is taken from `IR` and the operand address from `MAR`, not from `MBR`. -/
def executeStep (s : State) : Host.Outcome State Fault Refusal :=
  match decodeFields s.ir s.mar with
  | .instr i => exec i s
  | .rejected _ => execUnknown s

/-- `EngineStep` (R62): it dispatches on the phase alone. In `halted` there is no step, and a stray tick changes nothing
and emits nothing (R69, D14; log entry 5). -/
def engineStep (s : State) : Host.Outcome State Fault Refusal :=
  match s.phase with
  | .idle => .next (idleStep s)
  | .fetch => .next (fetchStep s)
  | .decode => .next (decodeStep s)
  | .execute => executeStep s
  | .halted => .next s

/-- The service condition (R119): the phase is `fetch` and the queue is not empty. -/
def State.serviceDue (s : State) : Bool := s.phase == .fetch && !s.pending.isEmpty

/-- `Tick` (R61): either one interrupt service or one engine step. -/
def coarseTick (s : State) : Host.Outcome State Fault Refusal :=
  if s.serviceDue then .next s.serviceInterrupt else engineStep s

/-- The state just before the execute step of the word `w` fetched from `PC`: `w` in the cell `PC` names (where there is
one), and what the fetch and decode steps leave of it in `MBR`, `IR` and `MAR` (R64, R65). -/
def State.placeFetched (s : State) (w : Word) : State :=
  { s with
    mem := if s.pc.toNat < Config.memSize then Memory.write s.mem s.pc.toNat w else s.mem
    mbr := w
    ir := opcodeField w
    mar := addrField w
    phase := .execute
    cursor := 0 }

end Sys2Proof.Machine
end

