-- ==== Sys2Proof/Machine/Micro.lean ====
section
/-! DEFINITION. The fine granularity (44_microsteps.md): one tick performs one register transfer. Its effects are the
coarse engine's own (R100: "both sharing the same opcode semantics table"). -/

namespace Sys2Proof.Machine

/-- A partial state update on the registers and memory, the unit of the parameter `MICRO` (R103). Any function may be one;
`State.transfer` says what it sees and what it changes. -/
abbrev Transfer := State → State

/-- What a transfer sees: the registers and the memory. Everything else stands at its reset value. -/
def State.dataView (s : State) : State :=
  { State.resetWith s.mem with pc := s.pc, mar := s.mar, mbr := s.mbr, ir := s.ir, ac := s.ac, mq := s.mq }

/-- Perform a transfer: its new `MAR`, `MBR`, `IR`, `AC`, `MQ` and memory. The phase, the cursor, `PC`, the queue, the
resolved count and the trace are no transfer's to write: they ride on the last micro-step (R103, D15). -/
def State.transfer (s : State) (t : Transfer) : State :=
  { s with
    mar := (t s.dataView).mar
    mbr := (t s.dataView).mbr
    ir := (t s.dataView).ir
    ac := (t s.dataView).ac
    mq := (t s.dataView).mq
    mem := (t s.dataView).mem }

/-- The data effect of an instruction on registers and memory, apart from trace, `PC` and phase. -/
def Instr.effect (i : Instr) (s : State) : State :=
  match i with
  | .sub x => effectSub x s
  | .load x => effectLoad x s
  | .mul x => effectMul x s
  | .div x => if divisorIsZero (s.operand x) then s else effectDiv x s
  | .ldmq x => effectLdmq x s
  | .halt _ => s
  | .add x => effectAdd x s
  | .st x => effectSt x s

/-- `MAR <- PC` ("PC→MAR") -/
def marFromPc : Transfer := fun s => s.setMar s.pc

/-- `MBR <- MemRead(MAR, 13)` ("Memory→MBR", "memory read") -/
def mbrFromMem : Transfer := fun s => s.setMbr (s.memRead s.mar)

/-- "MAR set": `MAR <- X`, which `MAR` already holds -/
def marSet : Transfer := fun s => s.setMar s.mar

/-- `AC <- MBR` ("MBR→AC") -/
def acFromMbr : Transfer := fun s => s.setAc s.mbr

/-- The whole decode step: `IR`, `MAR <- MBR` (R65) -/
def splitMbr : Transfer := fun s => (s.setIr (opcodeField s.mbr)).setMar (addrField s.mbr)

/-- The whole effect of the instruction in `IR` and `MAR` -/
def wholeEffect : Transfer := fun s =>
  match decodeFields s.ir s.mar with
  | .instr i => Instr.effect i s
  | .rejected _ => s

/-- The parameter `MICRO` (R103): the transfers of each phase and opcode, in order. A phase whose list is empty takes one
tick. What binds it, R101, is `Micro.AgreesWithCoarse` (Safety.lean). -/
structure Micro where
  idle : List Transfer
  fetch : List Transfer
  decode : List Transfer
  execute : Opcode → List Transfer

/-- The two decompositions the spec gives, fetch and `LOAD` (R103); the rest, "in no source", take one micro-step each:
DESIGN CHOICE, log entry 8. -/
def specMicro : Micro where
  idle := []
  fetch := [marFromPc, mbrFromMem]
  decode := [splitMbr]
  execute := fun op => if op = Mnemonic.LOAD.opcode then [marSet, mbrFromMem, acFromMbr] else [wholeEffect]

/-- The transfers of the current phase; in phase execute, those of the opcode that `IR` holds at this micro-step. Where `IR`
changed since the micro-step before (a host edit, R144, or a transfer that writes `IR`) the spec is silent, and the tick goes
on at the same cursor in the new opcode's transfers: DESIGN CHOICE, log entry 8. -/
def Micro.transfers (μ : Micro) (s : State) : List Transfer :=
  match s.phase with
  | .idle => μ.idle
  | .fetch => μ.fetch
  | .decode => μ.decode
  | .execute => μ.execute s.ir
  | .halted => []

/-- What rides on the last micro-step of an execute phase: trace, `PC` advance and phase, or the fault of a store out of
range (R103, D15). -/
def finishExecute (s : State) : Host.Outcome State Fault Refusal :=
  match decodeFields s.ir s.mar with
  | .rejected _ => execUnknown s
  | .instr (.sub _) => .next (s.complete .SUB)
  | .instr (.load _) => .next (s.complete .LOAD)
  | .instr (.mul _) => .next (s.complete .MUL)
  | .instr (.div x) => if divisorIsZero (s.operand x) then .next s.raiseDivideByZero else .next (s.complete .DIV)
  | .instr (.ldmq _) => .next (s.complete .LDMQ)
  | .instr (.halt _) => execHalt s
  | .instr (.add _) => .next (s.complete .ADD)
  | .instr (.st x) =>
    match s.memWrite (effectiveAddr x) s.ac with
    | .next _ => .next (s.complete .ST)
    | .fault r => .fault r
    | .refused r => .refused r

/-- What rides on the last micro-step of a phase. -/
def finishPhase (s : State) : Host.Outcome State Fault Refusal :=
  match s.phase with
  | .idle => .next ((s.emit .start).enterPhase .fetch)
  | .fetch => .next ((s.emit .fetch).enterPhase .decode)
  | .decode => .next ((s.emit .decode).enterPhase .execute)
  | .execute => finishExecute s
  | .halted => .next s

/-- One micro-step of a phase whose transfers are `ts`: the transfer the cursor points at, then either the cursor moves on
or, with the last transfer, the phase is finished (R102, R103). A cursor that points past the list performs no transfer and
finishes the phase. With an empty list that is the phase's one tick; with another list it happens only where `IR` changed
between two micro-steps of an execute phase (a host edit, R144), and there the spec is silent: DESIGN CHOICE, log entry
8. -/
def microStep (ts : List Transfer) (s : State) : Host.Outcome State Fault Refusal :=
  match ts[s.cursor]? with
  | none => finishPhase s
  | some t =>
    if s.cursor + 1 < ts.length then .next (State.emit { s.transfer t with cursor := s.cursor + 1 } .micro)
    else finishPhase (s.transfer t)

/-- `Tick` with the fine granularity: the interrupt check is made only before the first micro-step of a fetch (R104). -/
def fineTick (μ : Micro) (s : State) : Host.Outcome State Fault Refusal :=
  if s.serviceDue && s.cursor == 0 then .next s.serviceInterrupt
  else microStep (μ.transfers s) s

/-- `Tick` of a core built with a given granularity (R100) and, for the fine one, a given `MICRO` (R103). -/
def tick (g : Config.Granularity) (μ : Micro) (s : State) : Host.Outcome State Fault Refusal :=
  match g with
  | .coarse => coarseTick s
  | .fine => fineTick μ s

/-- `n` ticks of a given kind, one after another, stopping at the first fault or refusal. -/
def runWith (f : State → Host.Outcome State Fault Refusal) : Nat → State → Host.Outcome State Fault Refusal
  | 0, s => .next s
  | n + 1, s =>
    match f s with
    | .next t => runWith f n t
    | .fault r => .fault r
    | .refused r => .refused r

/-- The state `n` ticks of a given kind leave. A tick that faults or is refused writes nothing (R114), so it leaves the state
it was taken from, and no tick follows. -/
def stateAfter (f : State → Host.Outcome State Fault Refusal) : Nat → State → State
  | 0, s => s
  | n + 1, s =>
    match f s with
    | .next t => stateAfter f n t
    | .fault _ => s
    | .refused _ => s

end Sys2Proof.Machine
end

