-- ==== Sys2Proof/Machine/Step.lean ====
section
/-! DEFINITION. One step of the machine is one `Tick` (40_engine_cycle.md R60, R61), and how the host places an
instruction so that the very next tick executes it. -/

namespace Sys2Proof.Machine

/-- One `Tick` of the core as built (R61; `Config.granularity`). A core built coarse never consults its `MICRO`. -/
def step (s : State) : Host.Outcome State Fault Refusal := tick Config.granularity specMicro s

/-- `n` ticks of the core as built, with no event between them (R61, R98). -/
def ticks (n : Nat) (s : State) : Host.Outcome State Fault Refusal := runWith step n s

/-- `s` with the instruction of `w` in the cell `PC` names and fetched and decoded, so that the very next tick is its
execute step (log entry 6). -/
def State.withFetchWord (s : State) (nbits w : Nat) : State := s.placeFetched (BitVec.ofNat 13 (w % 2 ^ nbits))

end Sys2Proof.Machine
end

