-- ==== Sys2Proof/Machine/Loader.lean ====
section
/-! DEFINITION. The host's operation `Load(image)` (70_reset_and_hazards.md R142, 20_memory.md R47) and the program text it
reads, the CSV format (30_encoding.md R57). Outside the core: it fixes the memory a run starts from. -/

namespace Sys2Proof.Machine

/-- A program image: address and word, in the order of its lines (R57, R142). -/
abbrev Image := List (Nat × Word)

/-- Every cell 0 to 999 becomes empty; cells 1000 to 1003 keep their state (R142). -/
def Memory.clearProgram (m : Memory) : Memory := m.filter (fun p => Config.progSpace ≤ p.1)

/-- Write the pairs of an image in order. -/
def Memory.writeAll (m : Memory) (image : Image) : Memory := image.foldl (fun m p => Memory.write m p.1 p.2) m

/-- `Load(image)` (R142): memory only (D21). All or nothing: an entry outside 0 to 999 loads nothing. -/
def State.load (s : State) (image : Image) : Option State :=
  if image.all imageEntryOk then some { s with mem := (s.mem.clearProgram).writeAll image } else none

/-- The reserved cells the built-in sample program also carries, 1001 to 1003: each is written only where the cell is still
empty (R142, 90_conflicts.md C4). Cell 1000 is no loader's to write (R32). Their contents are in no source, so they are an
argument: DESIGN CHOICE, log entry 20. -/
def State.loadReserved (s : State) (contents : Image) : State :=
  contents.foldl
    (fun t p =>
      if Config.addrSavedPc ≤ p.1 ∧ p.1 < Config.memSize ∧ t.memCell p.1 = none then t.setCell p.1 p.2 else t) s

/-! ### The CSV format -/

/-- Why a line is malformed. The source gives "the 1-based line number and reason"; the reasons' names are the model's. -/
inductive LineError where
  | notAPair
  | badAddress
  | addressOutOfRange
  | badValue
  | valueTooLong
  deriving DecidableEq, Repr

/-- A failed load: the 1-based line number and the reason (R57). -/
structure CsvError where
  line : Nat
  reason : LineError
  deriving DecidableEq, Repr

/-- The pieces of a text between separators. -/
def splitText (sep : Char) : List Char → List (List Char)
  | [] => [[]]
  | c :: cs =>
    if c == sep then [] :: splitText sep cs
    else
      match splitText sep cs with
      | [] => [[c]]
      | l :: ls => (c :: l) :: ls

/-- A text contains a word. -/
def containsText (word : List Char) : List Char → Bool
  | [] => word.isEmpty
  | c :: cs => word.isPrefixOf (c :: cs) || containsText word cs

/-- The optional header line contains both 'address' and 'value', case-insensitively (R57). -/
def isHeader (line : List Char) : Bool :=
  let low := line.map Char.toLower
  containsText "address".toList low && containsText "value".toList low

/-- A base-10 integer: one or more decimal digits, leading zeros allowed and no sign. R57 says only "a base-10 integer in
[0, 999]": that `+5` and `-0` are no such integers here is DESIGN CHOICE, log entry 19. -/
def decimalValue (cs : List Char) : Option Nat :=
  if !cs.isEmpty && cs.all Char.isDigit then some (cs.foldl (fun n c => 10 * n + (c.toNat - '0'.toNat)) 0) else none

/-- A line `address,value` (R57): `address` in 0 to 999, `value` one to thirteen binary digits, left-zero-padded.
Where a line breaks several conditions at once the reason is the first of: not a pair, the address's form, its range, the
value's digits, its length. R57 asks for "reason" only: that order is DESIGN CHOICE, log entry 19. -/
def parseLine (line : List Char) : Except LineError (Nat × Word) :=
  match splitText ',' line with
  | [a, v] =>
    match decimalValue a with
    | none => .error .badAddress
    | some n =>
      if Config.progSpace ≤ n then .error .addressOutOfRange
      else if v.isEmpty || !v.all isBit then .error .badValue
      else if 13 < v.length then .error .valueTooLong
      else .ok (n, BitVec.ofNat 13 (binaryToDecimal v))
  | _ => .error .notAPair

/-- The lines from 1-based number `n` on; `header` says whether a header line may still come. Empty lines are skipped. The
first malformed line fails the whole text (R57). -/
def parseLines (n : Nat) (header : Bool) : List (List Char) → Except CsvError Image
  | [] => .ok []
  | l :: ls =>
    if l.isEmpty then parseLines (n + 1) header ls
    else if header && isHeader l then parseLines (n + 1) false ls
    else
      match parseLine l with
      | .error e => .error ⟨n, e⟩
      | .ok p =>
        match parseLines (n + 1) false ls with
        | .error e => .error e
        | .ok ps => .ok (p :: ps)

/-- A CSV text as a program image. -/
def parseCsv (text : List Char) : Except CsvError Image := parseLines 1 true (splitText '\n' text)

/-- `Load` of a CSV text: the state is untouched when any line is malformed (R57, R142). -/
def State.loadCsv (s : State) (text : List Char) : Except CsvError State :=
  match parseCsv text with
  | .error e => .error e
  | .ok image => .ok { s with mem := (s.mem.clearProgram).writeAll image }

end Sys2Proof.Machine
end

