-- ==== Sys2Proof/Machine/Environment.lean ====
section
/-! DEFINITION. What the outside world can do to the core: `Trigger`, the host operations between ticks, and the driver
(00_scope.md R3, R4; 70_reset_and_hazards.md R141 to R145). -/

namespace Sys2Proof.Machine

/-- `Trigger(id)` (R116): append at the tail of the queue, in any phase, and change nothing else. -/
def State.trigger (s : State) (id : Config.IntId) : State := { s with pending := s.pending ++ [id] }

/-- The host's `Reset` (R141): everything back to R27 but the memory. -/
def State.hostReset (s : State) : State := State.resetWith s.mem

/-- A host edit of one register, already of the register's width (R144). -/
inductive RegisterEdit where
  | pc (v : Addr)
  | mar (v : Addr)
  | mbr (v : Word)
  | ir (v : Opcode)
  | ac (v : Word)
  | mq (v : Word)
  deriving DecidableEq, Repr

/-- The edit replaces that register and nothing else (R144). -/
def State.editRegister (s : State) : RegisterEdit → State
  | .pc v => s.setPc v
  | .mar v => s.setMar v
  | .mbr v => s.setMbr v
  | .ir v => s.setIr v
  | .ac v => s.setAc v
  | .mq v => s.setMq v

/-- One thing that happens to the core, each atomic with respect to the others (R3). -/
inductive Event where
  | tick
  | trigger (id : Config.IntId)
  | reset
  | load (image : Image)
  | editRegister (e : RegisterEdit)
  deriving DecidableEq, Repr

/-- The core and whether it has stopped with a fault. The fault is no state of the core (10_state.md): it is the outcome of
a tick, remembered because the core then takes no further step until `Reset` (R114). -/
structure Session where
  core : State
  stopped : Option Fault
  deriving DecidableEq, Repr

/-- One event. After a fault a `Tick` does nothing and only `Reset` clears it (R114); a failed load changes nothing
(R142). -/
def Session.apply (σ : Session) : Event → Session
  | .tick =>
    match σ.stopped with
    | some _ => σ
    | none =>
      match step σ.core with
      | .next t => ⟨t, none⟩
      | .fault r => ⟨σ.core, some r⟩
      | .refused _ => σ
  | .trigger id => ⟨σ.core.trigger id, σ.stopped⟩
  | .reset => ⟨σ.core.hostReset, none⟩
  | .load image => ⟨(σ.core.load image).getD σ.core, σ.stopped⟩
  | .editRegister e => ⟨σ.core.editRegister e, σ.stopped⟩

/-- A sequence of events. -/
def Session.run (σ : Session) (es : List Event) : Session := es.foldl Session.apply σ

/-- How a run under the driver ends (R98). -/
inductive RunEnd where
  | halted
  | limitReached
  | faulted (r : Fault)
  | refused (r : Refusal)
  deriving DecidableEq, Repr

/-- The driver (R145): one tick after another, stopping when the phase is `halted` and at the cap `MAX_STEPS`, which
counts ticks (D16) and which it reports with a `LimitReached` event (R115). -/
def drive : (cap : Nat) → State → RunEnd × State
  | 0, s => if s.phase = .halted then (.halted, s) else (.limitReached, s.emit .limitReached)
  | k + 1, s =>
    if s.phase = .halted then (.halted, s)
    else
      match step s with
      | .next t => drive k t
      | .fault r => (.faulted r, s)
      | .refused r => (.refused r, s)

end Sys2Proof.Machine
end

