-- ==== Sys2Proof/Safety.lean ====
section
/-! DEFINITION. What the claims call a good state, a store that would stop the core, and a halted core. -/

namespace Sys2Proof.Machine

/-- The machine-wide invariant of a run from reset without host edits: memory canonical; `PC` in the program space (R25);
the sub-step cursor 0 (coarse granularity); between fetch and decode `MAR` is `PC` and `MBR` is the word `PC` names (R64);
at the execute step `IR` and `MAR` are the fields of `MBR`, which is the word `PC` names (R66: "in a run from reset the two
agree"); and in `halted` that word is a `HALT` (R70, R95). -/
abbrev State.Inv (s : State) : Prop :=
  s.mem.wf
  ∧ s.pc.toNat < Config.progSpace
  ∧ s.cursor = 0
  ∧ (s.phase = .decode → s.mar = s.pc ∧ s.mbr = s.memRead s.pc)
  ∧ (s.phase = .execute ∨ s.phase = .halted →
      s.ir = opcodeField s.mbr ∧ s.mar = addrField s.mbr ∧ s.mbr = s.memRead s.pc)
  ∧ (s.phase = .halted → s.ir = Mnemonic.HALT.opcode)

/-- The next tick is the execute step of a store to an address that names no cell: the one unsafe situation (R9, R114). -/
abbrev State.storeOutOfRange (s : State) : Prop :=
  s.phase = .execute ∧ s.ir = Mnemonic.ST.opcode ∧ Config.memSize ≤ s.mar.toNat

/-- A run of `n` ticks is safe when it meets no fault and no refusal. -/
def State.safeFor (s : State) (n : Nat) : Prop := ∃ t, ticks n s = .next t

/-- Two states that differ at most in their trace stream, which no rule reads (R24). -/
def State.withoutTrace (s : State) : State := { s with trace := [] }

/-- Apply a function to the next state of an outcome. -/
def mapNext (f : State → State) : Host.Outcome State Fault Refusal → Host.Outcome State Fault Refusal
  | .next s => .next (f s)
  | .fault r => .fault r
  | .refused r => .refused r

/-- How many ticks of the fine engine make one of the coarse engine from this state: one for a service, else one for each
transfer of the phase and at least one. -/
def Micro.ticksOf (μ : Micro) (s : State) : Nat := if s.serviceDue then 1 else max 1 (μ.transfers s).length

/-- What binds the parameter `MICRO` (R101, R103): from every state at the cursor's initial value, the micro-steps of the
phase, one after another, have the outcome of the single coarse tick, the trace apart; and the registers and memory after
them equal those after the single coarse tick, also where that tick faults and so writes nothing (R114). -/
def Micro.AgreesWithCoarse (μ : Micro) : Prop :=
  ∀ s : State, s.cursor = 0 →
    mapNext State.withoutTrace (runWith (fineTick μ) (μ.ticksOf s) s) = mapNext State.withoutTrace (coarseTick s) ∧
    (stateAfter (fineTick μ) (μ.ticksOf s) s).dataView = (stateAfter coarseTick 1 s).dataView

/-- What the coarse engine step of the current phase does to the registers and memory, `PC` apart (R63 to R66). -/
def State.phaseEffect (s : State) : State :=
  match s.phase with
  | .idle => s
  | .fetch => (s.setMar s.pc).setMbr (s.memRead s.pc)
  | .decode => splitMbr s
  | .execute => wholeEffect s
  | .halted => s

end Sys2Proof.Machine
end

