-- ==== Sys2Proof/Certificates/Slice0/Obligations.lean ====
section
/-! DEFINITION. The statements for the provers. Each docstring names the rule of spec/ it formalises and, where a clause
rests on a decision the spec marks as its own (92_eei_decisions.md, D<n>) or on a choice of this model, says so.

Where a statement says `t = { s with … }`, every field not named is unchanged: that record is the statement's frame.
The sub-step cursor belongs to the fine granularity (R20, R102) and its initial value 0 is decision D15: what happens to it
is one statement of its own, `TheCursorReturnsToZeroWithThePhase`, and the others leave it open. -/

open Sys2Proof Sys2Proof.Machine

/-! ### Vocabulary -/

/-- Every cell reads the same before and after: the value where present, and empty where empty. -/
def sameCells (s t : State) : Prop := ∀ a : Nat, t.memCell a = s.memCell a

/-- The registers the execute step of no data instruction names: `MAR`, `IR` (R73), and the interrupt controller, which no
instruction reaches (R22, R23). -/
def sameControl (s t : State) : Prop :=
  t.mar = s.mar ∧ t.ir = s.ir ∧ t.pending = s.pending ∧ t.resolved = s.resolved

/-- The instruction is over: `PC` moved on modulo 1000, the phase is `fetch`, and exactly the event `e` was appended to the
trace (R66 to R68). -/
def movedOn (s t : State) (e : TraceEvent) : Prop :=
  t.pc.toNat = (s.pc.toNat + 1) % 1000 ∧ t.phase = .fetch ∧ t.trace = s.trace ++ [e]

/-! ### Reset, encoding, codec -/

/-- R27: every piece of state right after reset, for every memory image the host supplies. The source gives the phase and
`PC`; the zeros of the other registers, the empty queue, count and trace are the spec's decision D13; that
`State.reset` takes the image with every cell empty is this model's choice (log entry 2). -/
def Obligations.ResetLeavesTheStateOfR27 : Prop :=
  (∀ image : Memory, ∃ s, s = State.resetWith image ∧ s.phase = .idle ∧ s.pc.toNat = 0 ∧ s.mar.toNat = 0 ∧
    s.mbr.toNat = 0 ∧ s.ir.toNat = 0 ∧ s.ac.toNat = 0 ∧ s.mq.toNat = 0 ∧ s.cursor = 0 ∧ s.pending = [] ∧
    s.resolved = 0 ∧ s.trace = [] ∧ s.mem = image) ∧
  State.reset = State.resetWith [] ∧ ∀ a, State.reset.memCell a = none

/-- R51: the decoder splits the word as bits 12 to 10 and bits 9 to 0, and reads nothing but the word. -/
def Obligations.DecodeSplitsTheWord : Prop :=
  ∀ w : Word,
    (opcodeField w).toNat = w.toNat / 1024 ∧ (addrField w).toNat = w.toNat % 1024 ∧
    w.toNat = (opcodeField w).toNat * 1024 + (addrField w).toNat ∧
    ∃ i, decode w = .instr i ∧ i.mnemonic.opcode = opcodeField w ∧ i.operand = addrField w

/-- R50, R53: decoding the word of a well-formed instruction gives the instruction back, whatever its operand. -/
def Obligations.DecodeOfEncodeIsTheInstruction : Prop :=
  ∀ i : Instr, i.wellFormed = true → decode (encode i) = .instr i

/-- R54: every one of the 8192 words is exactly one instruction, and no word is rejected. -/
def Obligations.EveryWordIsExactlyOneInstruction : Prop :=
  ∀ w : Word, ∃ i, decode w = .instr i ∧ encode i = w ∧ ∀ j, encode j = w → j = i

/-- Words written out from the encodings of 30_encoding.md and of 95_test_vectors.md section 2.1. -/
def Obligations.KnownWordsDecodeAsListed : Prop :=
  decode 0b0000000000011#13 = .instr (.sub 3#10) ∧ decode 0b0010000000101#13 = .instr (.load 5#10) ∧
  decode 0b0100000001011#13 = .instr (.mul 11#10) ∧ decode 0b0110000001101#13 = .instr (.div 13#10) ∧
  decode 0b1001111100111#13 = .instr (.ldmq 999#10) ∧ decode 0b1010000000000#13 = .instr (.halt 0#10) ∧
  decode 0b1101111101011#13 = .instr (.add 1003#10) ∧ decode 0b1110000000111#13 = .instr (.st 7#10)

/-- The text decoder, which is this model's own (log entry 18, DESIGN CHOICE; in the core no decode error exists, R59): a
text that is not exactly 13 binary digits is rejected by name, a text of 13 characters with another digit among them
included; one that is decodes to the instruction of its value. -/
def Obligations.DecodeErrorIsExactlyTheWrongWidth : Prop :=
  ∀ cs : List Char,
    (wellFormedText 13 cs = true → ∃ i, decodeText cs = .instr i ∧ (encode i).toNat = binaryToDecimal cs) ∧
    (wellFormedText 13 cs = false → decodeText cs = .rejected .widthViolation)

/-- R7: the codec's round trip in both directions, for every width; most significant bit first, so that a further character
on the left weighs the power of two of the characters after it; padded on the left with `0`. -/
def Obligations.CodecRoundTrip : Prop :=
  (∀ (width : Nat) (cs : List Char), wellFormedText width cs = true →
    decimalToBinary width (binaryToDecimal cs) = cs ∧ binaryToDecimal cs < 2 ^ width) ∧
  (∀ width v : Nat, v < 2 ^ width →
    wellFormedText width (decimalToBinary width v) = true ∧ binaryToDecimal (decimalToBinary width v) = v) ∧
  (∀ cs : List Char, binaryToDecimal ('0' :: cs) = binaryToDecimal cs ∧
    binaryToDecimal ('1' :: cs) = 2 ^ cs.length + binaryToDecimal cs) ∧
  (∀ width k v : Nat, v < 2 ^ width →
    decimalToBinary (k + width) v = List.replicate k '0' ++ decimalToBinary width v)

/-! ### Memory -/

/-- R35: a write makes its cell present with the value and changes no other cell, at every address that names a cell, the
reserved region included; nothing but memory changes. -/
def Obligations.MemoryWriteChangesOneCell : Prop :=
  ∀ (s : State) (a : Addr) (v : Word), a.toNat < 1004 →
    ∃ t : State, s.memWrite a v = .next t ∧ t.memCell a.toNat = some v ∧ t.memRead a = v ∧
      (∀ b, b ≠ a.toNat → t.memCell b = s.memCell b) ∧ t = { s with mem := t.mem }

/-- R33, R34: what a read delivers: the value of a present cell, zero for an empty one and for an address with no cell.
Zero for an operand read of an empty cell is the spec's decision D4, zero at 1004 and above D5. -/
def Obligations.MemoryReadDelivers : Prop :=
  ∀ (s : State) (a : Addr),
    (∀ v, s.memCell a.toNat = some v → s.memRead a = v) ∧
    (s.memCell a.toNat = none → (s.memRead a).toNat = 0) ∧
    (1004 ≤ a.toNat → s.memCell a.toNat = none)

/-- Equal cells, equal memories: two canonical memories that agree at every address are the same list. The canonical form
is the model's own (log entry 1). -/
def Obligations.CanonicalMemoriesAreDeterminedByTheirCells : Prop :=
  ∀ s t : State, s.mem.wf → t.mem.wf → sameCells s t → s.mem = t.mem

/-! ### The engine -/

/-- R63: the idle step, and that `idle` is never entered again. -/
def Obligations.IdleStepOnlyChangesThePhase : Prop :=
  (∀ s : State, s.phase = .idle →
    ∃ c, step s = .next { s with phase := .fetch, cursor := c, trace := s.trace ++ [TraceEvent.start] }) ∧
  (∀ s t : State, step s = .next t → t.phase ≠ .idle)

/-- R64: the fetch step. The word is zero where the address has no content; at 1004 and above that is decision D5. -/
def Obligations.FetchStepLoadsMarAndMbr : Prop :=
  ∀ s : State, s.phase = .fetch → s.pending = [] →
    ∃ (w : Word) (c : Nat), step s = .next
        { s with mar := s.pc, mbr := w, phase := .decode, cursor := c, trace := s.trace ++ [TraceEvent.fetch] } ∧
      (∀ v, s.memCell s.pc.toNat = some v → w = v) ∧ (s.memCell s.pc.toNat = none → w.toNat = 0)

/-- R65: the decode step. -/
def Obligations.DecodeStepSplitsMbr : Prop :=
  ∀ s : State, s.phase = .decode →
    ∃ (op : Opcode) (x : Addr) (c : Nat), op.toNat = s.mbr.toNat / 1024 ∧ x.toNat = s.mbr.toNat % 1024 ∧
      step s = .next { s with ir := op, mar := x, phase := .execute, cursor := c, trace := s.trace ++ [TraceEvent.decode] }

/-- R20, R102: the sub-step cursor is at its initial value, 0 by decision D15, whenever a tick has changed the phase, and
with the coarse granularity no tick moves it otherwise. -/
def Obligations.TheCursorReturnsToZeroWithThePhase : Prop :=
  ∀ s t : State, step s = .next t → (t.phase ≠ s.phase → t.cursor = 0) ∧ (t.phase = s.phase → t.cursor = s.cursor)

/-- R66, R72: a tick in phase `execute` runs the instruction in `IR` and `MAR`; and from phase `fetch` with nothing pending
three ticks run the instruction that the word at `PC` decodes to, from the state that fetch and decode leave. -/
def Obligations.StepRunsTheDecodedInstruction : Prop :=
  (∀ (s : State) (i : Instr), s.phase = .execute → decodeFields s.ir s.mar = .instr i → step s = exec i s) ∧
  (∀ (s : State) (i : Instr), s.phase = .fetch → s.pending = [] → i.wellFormed = true →
    decode (s.memRead s.pc) = .instr i →
    ticks 3 s = exec i
      { s with
        mar := i.operand, mbr := s.memRead s.pc, ir := i.mnemonic.opcode, phase := .execute, cursor := 0
        trace := s.trace ++ [TraceEvent.fetch, TraceEvent.decode] })

/-- What `State.withFetchWord` stands for (this model's own, log entry 6): the state two ticks, fetch and decode, leave of
the word in the cell at `PC`, but for their trace; so the very next tick executes it. -/
def Obligations.PlacedWordIsTheFetchedAndDecodedWord : Prop :=
  ∀ (s : State) (w : Word),
    (∃ i, decode w = .instr i ∧ step (s.withFetchWord 13 w.toNat) = exec i (s.withFetchWord 13 w.toNat)) ∧
    (s.phase = .fetch → s.pending = [] → s.pc.toNat < 1004 →
      ticks 2 (s.setCell s.pc.toNat w) =
        .next { s.withFetchWord 13 w.toNat with trace := s.trace ++ [TraceEvent.fetch, TraceEvent.decode] })

/-- R70: the only phase transitions, `halted` being reached only from `execute` with the `HALT` opcode. (A tick in
`halted` is no step: `HaltedForEver`.) -/
def Obligations.PhaseTransitions : Prop :=
  ∀ s t : State, s.phase ≠ .halted → step s = .next t →
    (s.phase = .idle ∧ t.phase = .fetch) ∨
    (s.phase = .fetch ∧ s.pending = [] ∧ t.phase = .decode) ∨
    (s.phase = .fetch ∧ s.pending ≠ [] ∧ t.phase = .fetch) ∨
    (s.phase = .decode ∧ t.phase = .execute) ∨
    (s.phase = .execute ∧ s.ir ≠ 0b101#3 ∧ t.phase = .fetch) ∨
    (s.phase = .execute ∧ s.ir = 0b101#3 ∧ t.phase = .halted)

/-- R67: `NextPC(p) = (p + 1) mod 1000` for every 10-bit `p`, always in 0 to 999. -/
def Obligations.NextPcIsPlusOneModulo1000 : Prop :=
  ∀ p : Addr, (nextPC p).toNat = (p.toNat + 1) % 1000 ∧ (nextPC p).toNat < 1000

/-- R16, R97: `PC` changes only in the execute step of an instruction other than `HALT`, and then to the next address
modulo 1000: control flow is sequential, and an interrupt does not move it. -/
def Obligations.PcMovesOnlyAtTheEndOfExecute : Prop :=
  ∀ s t : State, step s = .next t →
    (s.phase = .execute ∧ s.ir ≠ 0b101#3 → t.pc.toNat = (s.pc.toNat + 1) % 1000) ∧
    (¬(s.phase = .execute ∧ s.ir ≠ 0b101#3) → t.pc = s.pc)

/-- R62 (10_state.md R24): every tick but one in `halted` appends exactly one event, the one R24 lists for what the tick
did. That it is exactly one is this model's reading of "one or more" (log entry 9). -/
def Obligations.EveryTickAppendsItsEvent : Prop :=
  ∀ s t : State, step s = .next t → s.phase ≠ .halted →
    ∃ e : TraceEvent, t.trace = s.trace ++ [e] ∧
      match s.phase with
      | .idle => e = .start
      | .fetch =>
        if s.pending = [] then e = .fetch
        else ∃ id c, s.pending.head? = some id ∧ e = .interrupt id s.pc c ∧ t.memCell 1003 = some c
      | .decode => e = .decode
      | .execute =>
        if s.ir = 0b101#3 then e = .halt
        else if s.ir = 0b011#3 ∧ (s.memRead s.mar).toNat = 0 then e = .divByZero
        else ∃ m : Mnemonic, m.opcode = s.ir ∧ e = .exec m
      | .halted => True

/-- R69: `halted` is terminal: whatever ticks and triggers come, only the queue grows. That a stray tick changes nothing
is decision D14. -/
def Obligations.HaltedForEver : Prop :=
  (∀ (s : State) (n : Nat), s.phase = .halted → ticks n s = .next s) ∧
  (∀ (σ : Session) (ids : List (Option Config.IntId)), σ.core.phase = .halted → σ.stopped = none →
    σ.run (ids.map fun o => match o with | none => Event.tick | some i => Event.trigger i) =
      ⟨{ σ.core with pending := σ.core.pending ++ ids.reduceOption }, none⟩)

/-! ### The instructions, with their frames -/

/-- R80 `LOAD`: `AC` and `MBR` take the operand; every other register, the controller and every cell are unchanged. -/
def Obligations.LoadResultAndFrame : Prop :=
  ∀ (s : State) (x : Addr), ∃ t : State, exec (.load x) s = .next t ∧
    t.ac = s.memRead x ∧ t.mbr = s.memRead x ∧ t.mq = s.mq ∧
    sameControl s t ∧ sameCells s t ∧ movedOn s t (.exec .LOAD)

/-- R81 `LDMQ`: `MQ` takes the operand; every other register (`MBR` by decision D8), the controller and every cell are
unchanged. -/
def Obligations.LdmqResultAndFrame : Prop :=
  ∀ (s : State) (x : Addr), ∃ t : State, exec (.ldmq x) s = .next t ∧
    t.mq = s.memRead x ∧ t.ac = s.ac ∧ t.mbr = s.mbr ∧
    sameControl s t ∧ sameCells s t ∧ movedOn s t (.exec .LDMQ)

/-- R82 `ST` to an address that names a cell: the effective address is `X`, that one cell becomes present with `AC`, every
other cell and every register (`MBR` by decision D8) are unchanged, and the memory stays canonical. -/
def Obligations.StoreResultAndFrame : Prop :=
  ∀ (s : State) (x : Addr), (effectiveAddr x).toNat < 1004 → ∃ t : State, exec (.st x) s = .next t ∧
    (effectiveAddr x) = x ∧ t.memCell (effectiveAddr x).toNat = some s.ac ∧
    (∀ a, a ≠ (effectiveAddr x).toNat → t.memCell a = s.memCell a) ∧
    t.ac = s.ac ∧ t.mq = s.mq ∧ t.mbr = s.mbr ∧ sameControl s t ∧ movedOn s t (.exec .ST) ∧
    (s.mem.wf → t.mem.wf)

/-- R36, R82, R114: `ST` to 1004 to 1023 faults with the address and writes nothing: the write itself faults. The spec's
decision D6. -/
def Obligations.StoreOutOfRangeFaults : Prop :=
  ∀ (s : State) (x : Addr), 1004 ≤ x.toNat →
    exec (.st x) s = .fault (.storeRange x) ∧ ∀ v, s.memWrite x v = .fault (.storeRange x)

/-- R86 `ADD`: `(AC + m) mod 2^13`; `MBR` unchanged by decision D8. -/
def Obligations.AddResultAndFrame : Prop :=
  ∀ (s : State) (x : Addr), ∃ t : State, exec (.add x) s = .next t ∧
    t.ac.toNat = (s.ac.toNat + (s.memRead x).toNat) % 8192 ∧ t.mq = s.mq ∧ t.mbr = s.mbr ∧
    sameControl s t ∧ sameCells s t ∧ movedOn s t (.exec .ADD)

/-- R87 `SUB`: `AC - m`, plus 8192 where `AC < m`; `MBR` unchanged by decision D8. -/
def Obligations.SubResultAndFrame : Prop :=
  ∀ (s : State) (x : Addr), ∃ t : State, exec (.sub x) s = .next t ∧
    t.ac.toNat = (if s.ac.toNat < (s.memRead x).toNat then s.ac.toNat + 8192 - (s.memRead x).toNat
      else s.ac.toNat - (s.memRead x).toNat) ∧ t.mq = s.mq ∧ t.mbr = s.mbr ∧
    sameControl s t ∧ sameCells s t ∧ movedOn s t (.exec .SUB)

/-- R88 `MUL`: the low half in `AC`, the high half in `MQ`, the product recoverable; `MBR` unchanged by decision D8. -/
def Obligations.MulResultAndFrame : Prop :=
  ∀ (s : State) (x : Addr), ∃ t : State, exec (.mul x) s = .next t ∧
    t.ac.toNat = s.ac.toNat * (s.memRead x).toNat % 8192 ∧
    t.mq.toNat = s.ac.toNat * (s.memRead x).toNat / 8192 ∧
    t.mq.toNat * 8192 + t.ac.toNat = s.ac.toNat * (s.memRead x).toNat ∧ t.mq.toNat ≤ 8190 ∧
    t.mbr = s.mbr ∧ sameControl s t ∧ sameCells s t ∧ movedOn s t (.exec .MUL)

/-- R89 `DIV` by a non-zero operand: quotient in `AC`, remainder of the same division in `MQ` (decision D7); `MBR`
unchanged by decision D8. -/
def Obligations.DivResultAndFrame : Prop :=
  ∀ (s : State) (x : Addr), (s.memRead x).toNat ≠ 0 → ∃ t : State, exec (.div x) s = .next t ∧
    t.ac.toNat = s.ac.toNat / (s.memRead x).toNat ∧ t.mq.toNat = s.ac.toNat % (s.memRead x).toNat ∧
    s.ac.toNat = t.ac.toNat * (s.memRead x).toNat + t.mq.toNat ∧ t.mq.toNat < (s.memRead x).toNat ∧
    t.mbr = s.mbr ∧ sameControl s t ∧ sameCells s t ∧ movedOn s t (.exec .DIV)

/-- R111: a zero divisor stops nothing, saves nothing and writes no data register; the machine goes on. -/
def Obligations.DivByZeroCompletesWithoutAResult : Prop :=
  ∀ (s : State) (x : Addr), (s.memRead x).toNat = 0 → ∃ t : State, exec (.div x) s = .next t ∧
    t.ac = s.ac ∧ t.mq = s.mq ∧ t.mbr = s.mbr ∧
    sameControl s t ∧ sameCells s t ∧ movedOn s t .divByZero

/-- R95 `HALT`: the phase becomes `halted` and, the trace apart, nothing else changes: `PC` stays, whatever the field. -/
def Obligations.HaltStopsTheCore : Prop :=
  ∀ (s : State) (x : Addr), ∃ c, exec (.halt x) s =
    .next { s with phase := .halted, cursor := c, trace := s.trace ++ [TraceEvent.halt] }

/-- R96, R112: the unknown-opcode fallback: a trace event, no data register and no cell written, and the machine goes on;
and that no opcode reaches it (R54, 90_conflicts.md C1, C2). -/
def Obligations.UnknownOpcodeFallbackIsNeverReached : Prop :=
  (∀ s : State, ∃ t : State, execUnknown s = .next t ∧ t.ac = s.ac ∧ t.mq = s.mq ∧ t.mbr = s.mbr ∧
    sameControl s t ∧ sameCells s t ∧ movedOn s t .unknownOpcode) ∧
  (∀ (op : Opcode) (x : Addr) (e : DecodeError), decodeFields op x ≠ .rejected e)

/-- Exact unsigned arithmetic, narrowed at the end (42_arithmetic.md section 1): sums and differences modulo 2^13, nothing of
a product lost, floor division with its remainder. Each completes with its plain event, so nothing traps. That the remainder
is of the old `AC` is the spec's decision D7 (log entry 13); the zero-divisor clause is R90's. -/
def Obligations.ArithmeticIsExactThenNarrowed : Prop :=
  ∀ (s : State) (x : Addr) (m : Nat), m = (s.memRead x).toNat →
    (∃ t : State, exec (.add x) s = .next t ∧ (t.ac.toNat : Int) = ((s.ac.toNat : Int) + m) % 8192 ∧
      t.trace = s.trace ++ [TraceEvent.exec .ADD]) ∧
    (∃ t : State, exec (.sub x) s = .next t ∧ (t.ac.toNat : Int) = ((s.ac.toNat : Int) - m) % 8192 ∧
      t.trace = s.trace ++ [TraceEvent.exec .SUB]) ∧
    (∃ t : State, exec (.mul x) s = .next t ∧ 8192 * t.mq.toNat + t.ac.toNat = s.ac.toNat * m ∧
      s.ac.toNat * m < 8192 * 8192 ∧ t.trace = s.trace ++ [TraceEvent.exec .MUL]) ∧
    (m ≠ 0 → ∃ t : State, exec (.div x) s = .next t ∧ t.ac.toNat * m ≤ s.ac.toNat ∧
      s.ac.toNat < (t.ac.toNat + 1) * m ∧
      t.mq.toNat + t.ac.toNat * m = s.ac.toNat ∧ t.trace = s.trace ++ [TraceEvent.exec .DIV]) ∧
    (m = 0 → ∃ t : State, exec (.div x) s = .next t ∧ t.ac = s.ac ∧ t.mq = s.mq ∧ t.phase = .fetch)

/-! ### Rules of the whole machine -/

/-- R9, R114, R135: no tick is refused, and a tick faults exactly when it is the execute step of a store to an address
that names no cell (the spec's decision D6). -/
def Obligations.TheOnlyStopIsAStoreOutOfRange : Prop :=
  ∀ s : State, (∀ r, step s ≠ .refused r) ∧
    (∀ r, step s = .fault r ↔ s.phase = .execute ∧ s.ir = 0b111#3 ∧ 1004 ≤ s.mar.toNat ∧ r = .storeRange s.mar)

/-- R37, 90_conflicts.md C7: the only cells a tick can change are the one a store names and, in a service, 1001 and
1003. -/
def Obligations.OnlyStoresAndServicesWriteMemory : Prop :=
  ∀ s t : State, step s = .next t → ∀ a : Nat, t.memCell a ≠ s.memCell a →
    (s.phase = .execute ∧ s.ir = 0b111#3 ∧ a = s.mar.toNat ∧ t.memCell a = some s.ac) ∨
    (s.phase = .fetch ∧ s.pending ≠ [] ∧ (a = 1001 ∨ a = 1003))

/-- R21: no tick makes a present cell empty. -/
def Obligations.NoTickEmptiesACell : Prop :=
  ∀ s t : State, step s = .next t → ∀ a : Nat, s.memCell a ≠ none → t.memCell a ≠ none

/-- R45, R149: a word stored over the next instruction is the one fetched, with no barrier between. -/
def Obligations.StoredWordIsFetchedNext : Prop :=
  ∀ s : State, s.phase = .execute → s.ir = 0b111#3 → s.mar = nextPC s.pc → s.pending = [] →
    ∃ (t : State) (i : Instr), ticks 3 s = .next t ∧ decode s.ac = .instr i ∧ t.phase = .execute ∧
      t.mbr = s.ac ∧ t.pc = s.mar ∧ t.ac = s.ac ∧ step t = exec i t

/-- R56, R148: from `fetch` with nothing pending at an empty cell, three ticks run `SUB 0`: `Mem(0)` is taken from `AC`, no
cell changes (the empty one stays empty), and `PC` moves on. It rests on decisions of the spec: `Mem(0)` reads as 0 where
cell 0 is empty, D4, and a `PC` of 1004 to 1023, which names no cell, fetches the zero word, D5 (log entry 12); `MBR`, `MAR`
and `IR` keep after the execute step what fetch and decode left, D8 (log entry 14). -/
def Obligations.EmptyCellExecutesAsSubZero : Prop :=
  ∀ s : State, s.phase = .fetch → s.pending = [] → s.memCell s.pc.toNat = none →
    ∃ t : State, ticks 3 s = .next t ∧ (t.ac.toNat : Int) = ((s.ac.toNat : Int) - (s.memRead 0#10).toNat) % 8192 ∧
      t.mq = s.mq ∧ t.ir.toNat = 0 ∧ t.mar.toNat = 0 ∧ t.mbr.toNat = 0 ∧ sameCells s t ∧ t.pending = [] ∧
      t.pc.toNat = (s.pc.toNat + 1) % 1000 ∧ t.phase = .fetch

/-- R12: no rule reads `MQ`: two states that differ only in `MQ` take steps that differ at most in `MQ`. -/
def Obligations.NothingReadsMq : Prop :=
  ∀ (s : State) (v : Word),
    mapNext (fun t => t.setMq 0#13) (step (s.setMq v)) = mapNext (fun t => t.setMq 0#13) (step s)

/-- R23, R24: no rule reads the resolved count or the trace: what a tick does otherwise does not depend on them. -/
def Obligations.NothingReadsTraceOrResolvedCount : Prop :=
  ∀ (s : State) (k : Nat) (es : List TraceEvent),
    mapNext (fun t => { t with resolved := 0, trace := [] }) (step { s with resolved := k, trace := es }) =
      mapNext (fun t => { t with resolved := 0, trace := [] }) (step s)

/-- R22, R116: identifiers are opaque: renaming those in the queue changes no tick but for the renaming. -/
def Obligations.InterruptIdentifiersAreOpaque : Prop :=
  ∀ (s : State) (f : Config.IntId → Config.IntId),
    mapNext State.withoutTrace (step { s with pending := s.pending.map f }) =
      mapNext (fun t => { t.withoutTrace with pending := t.pending.map f }) (step s)

/-! ### Interrupts -/

/-- R116: `Trigger` appends at the tail in any phase and changes nothing else. -/
def Obligations.TriggerAppendsAtTheTail : Prop :=
  ∀ (s : State) (id : Config.IntId), ∃ t : State, s.trigger id = t ∧ t.pending = s.pending ++ [id] ∧
    t = { s with pending := t.pending }

/-- R119: a tick services an interrupt exactly when the phase is `fetch` and the queue is not empty: then the head leaves
the queue and the count rises by one, and otherwise neither the queue nor the count changes. -/
def Obligations.ServiceExactlyAtFetchWithAPendingInterrupt : Prop :=
  ∀ s : State,
    (∀ id rest, s.phase = .fetch → s.pending = id :: rest →
      ∃ t : State, step s = .next t ∧ t.pending = rest ∧ t.resolved = s.resolved + 1 ∧ t.phase = .fetch ∧
        t.pc = s.pc) ∧
    (∀ t, ¬(s.phase = .fetch ∧ s.pending ≠ []) → step s = .next t →
      t.pending = s.pending ∧ t.resolved = s.resolved)

/-- R120, R121, R122: one service, every effect and the whole frame. `w` is the service word and `m` what its step 4 adds:
the `PC` just saved where the field is 1001, the counter (0 if empty) where it is 1003. Rests on the spec's decisions D9
(zero-extended `PC`), D10 (default word), D11 (opcode bits ignored, order of effects), D4 and D5 (the read). -/
def Obligations.ServiceEffectsAndFrame : Prop :=
  ∀ (s : State) (id : Config.IntId) (rest : List Config.IntId) (w : Word) (c m : Nat),
    s.phase = .fetch → s.pending = id :: rest →
    w = (s.memCell 1002).getD 0b1101111101011#13 → c = ((s.memCell 1003).getD 0#13).toNat →
    m = (if w.toNat % 1024 = 1001 then s.pc.toNat else if w.toNat % 1024 = 1003 then c
      else ((s.memCell (w.toNat % 1024)).getD 0#13).toNat) →
    ∃ t : State, step s = .next t ∧
      t.ac.toNat = (s.ac.toNat + m) % 8192 ∧
      (∃ v, t.memCell 1001 = some v ∧ v.toNat = s.pc.toNat) ∧
      (∃ v, t.memCell 1003 = some v ∧ v.toNat = (c + 1) % 8192 ∧
        t.trace = s.trace ++ [TraceEvent.interrupt id s.pc v]) ∧
      (∀ a, a ≠ 1001 → a ≠ 1003 → t.memCell a = s.memCell a) ∧
      t.pending = rest ∧ t.resolved = s.resolved + 1 ∧
      t.pc = s.pc ∧ t.mar = s.mar ∧ t.mbr = s.mbr ∧ t.ir = s.ir ∧ t.mq = s.mq ∧ t.phase = s.phase ∧
      t.cursor = s.cursor ∧ (s.mem.wf → t.mem.wf)

/-- The identifier an interrupt event names. -/
def interruptId : TraceEvent → Option Config.IntId
  | .interrupt id _ _ => some id
  | _ => none

/-- R118: with `n` entries pending at `fetch` the next `n` ticks are services in FIFO order, one a tick, and the tick after
them is the fetch step; an entry triggered meanwhile is at the tail, so it is serviced before the fetch too. -/
def Obligations.PendingInterruptsAreServicedInOrder : Prop :=
  ∀ s : State, s.phase = .fetch →
    (∀ k, k ≤ s.pending.length → ∃ (t : State) (es : List TraceEvent), ticks k s = .next t ∧
      t.phase = .fetch ∧ t.pc = s.pc ∧ t.pending = s.pending.drop k ∧ t.resolved = s.resolved + k ∧
      t.trace = s.trace ++ es ∧
      es.map interruptId = (s.pending.take k).map some ∧
      (∀ id, (t.trigger id).pending = s.pending.drop k ++ [id] ∧ (t.trigger id).phase = .fetch)) ∧
    (∃ t : State, ticks s.pending.length s = .next t ∧ t.pending = [] ∧ step t = .next (fetchStep t))

/-- R123 (derived there) over a whole queue: with the default service word, or any word whose field is 1003, draining `n`
interrupts from counter `c` adds `c + (c + 1) + … + (c + n - 1)` to `AC` and `n` to the counter, both modulo 2^13, saves
`PC`, and leaves the other registers and cells alone. It rests on the spec's decisions D9 (the saved `PC`), D10 (the default
word) and D11 (opcode bits ignored, order of effects), log entry 15. -/
def Obligations.DrainingTheQueueInClosedForm : Prop :=
  ∀ (s : State) (n c : Nat), s.phase = .fetch → s.pending.length = n →
    ((s.memCell 1002).getD 0b1101111101011#13).toNat % 1024 = 1003 →
    c = ((s.memCell 1003).getD 0#13).toNat →
    ∃ t : State, ticks n s = .next t ∧ t.pending = [] ∧ t.resolved = s.resolved + n ∧
      t.ac.toNat = (s.ac.toNat + n * c + n * (n - 1) / 2) % 8192 ∧
      ((t.memCell 1003).getD 0#13).toNat = (c + n) % 8192 ∧
      (n ≠ 0 → ((t.memCell 1001).getD 0#13).toNat = s.pc.toNat) ∧
      (∀ a, a ≠ 1001 → a ≠ 1003 → t.memCell a = s.memCell a) ∧
      t.pc = s.pc ∧ t.mar = s.mar ∧ t.mbr = s.mbr ∧ t.ir = s.ir ∧ t.mq = s.mq ∧ t.phase = .fetch

/-- R22, R23: no tick loses or invents an interrupt: resolved plus pending is constant over every run of ticks. -/
def Obligations.ResolvedPlusPendingIsConstant : Prop :=
  ∀ (n : Nat) (s t : State), ticks n s = .next t →
    t.resolved + t.pending.length = s.resolved + s.pending.length

/-! ### Invariants -/

/-- The reset state meets the invariant `State.Inv` (Safety.lean), with any canonical memory image. -/
def Obligations.ResetMeetsTheInvariant : Prop :=
  State.reset.Inv ∧ ∀ image : Memory, image.wf → (State.resetWith image).Inv

/-- Every tick keeps the invariant: canonical memory, `PC` in the program space (R25), `MAR`, `MBR` and `IR` the fetched
instruction's (R64 to R66), and a halted core stopped at a `HALT` word (R95). -/
def Obligations.EveryStepKeepsTheInvariant : Prop := ∀ s t : State, s.Inv → step s = .next t → t.Inv

/-- Every run of ticks, triggers and resets in any interleaving keeps it (R3, R29): loads and register edits, which happen
between runs, are not among the events. -/
def Obligations.EveryInterleavingKeepsTheInvariant : Prop :=
  ∀ (σ : Session) (es : List Event), σ.core.Inv →
    (∀ e ∈ es, e = .tick ∨ e = .reset ∨ ∃ id, e = .trigger id) → (σ.run es).core.Inv

/-! ### The environment -/

/-- R114: after a fault ticks do nothing, and only `Reset` clears it, putting the state of R27 back over the memory as it
is (R141). The spec's decisions D6 and D22; that `Reset` empties the trace with the rest is this model's choice (log entry
21), and that the stop is remembered beside the core too (log entry 11). -/
def Obligations.FaultLastsUntilReset : Prop :=
  (∀ (σ : Session) (r : Fault), σ.stopped = some r → σ.apply .tick = σ) ∧
  (∀ (σ : Session) (r : Fault) (es : List Event), σ.stopped = some r → (∀ e ∈ es, e ≠ .reset) →
    (σ.run es).stopped = some r) ∧
  (∀ σ : Session, σ.apply .reset = ⟨State.resetWith σ.core.mem, none⟩) ∧
  (∀ σ : Session, σ.stopped = none → σ.core.storeOutOfRange →
    σ.apply .tick = ⟨σ.core, some (.storeRange σ.core.mar)⟩)

/-- R142, R47: a load of a well-formed image empties the program space and writes the pairs; it keeps cells 1000 to 1003
and, by the spec's decision D21, everything but memory. An image with an address outside 0 to 999 loads nothing. That the
later of two pairs for one address wins is this model's choice (log entries 19 and 20). -/
def Obligations.LoadReplacesTheProgramSpace : Prop :=
  ∀ (s : State) (image : Image),
    ((∀ p ∈ image, p.1 ≤ 999) → ∃ t : State, s.load image = some t ∧
      (∀ a, 1000 ≤ a → t.memCell a = s.memCell a) ∧
      (∀ a, a ≤ 999 → t.memCell a = (image.reverse.find? fun p => p.1 == a).map (·.2)) ∧
      t = { s with mem := t.mem } ∧ (s.mem.wf → t.mem.wf)) ∧
    ((∃ p ∈ image, 999 < p.1) → s.load image = none ∧
      ∀ r, (⟨s, r⟩ : Session).apply (.load image) = ⟨s, r⟩)

/-- R142, 90_conflicts.md C4: the reserved contents a sample program carries never alter a reserved cell that already holds
a value, nor any cell of the program space, nor cell 1000, which only `ST` writes (R32); an empty one of 1001 to 1003 takes
its contents. That nothing but memory changes is the spec's decision D21; that the contents
are an argument, and that the first of two contents for one cell wins, are this model's choices (log entry 20). -/
def Obligations.LoadingKeepsReservedCellsThatHoldValues : Prop :=
  ∀ (s : State) (contents : Image),
    (∀ a, s.memCell a ≠ none → (s.loadReserved contents).memCell a = s.memCell a) ∧
    (∀ a, a < 1001 → (s.loadReserved contents).memCell a = s.memCell a) ∧
    (∀ a v, 1001 ≤ a → a < 1004 → s.memCell a = none → contents.find? (fun p => p.1 == a) = some (a, v) →
      (s.loadReserved contents).memCell a = some v) ∧
    s.loadReserved contents = { s with mem := (s.loadReserved contents).mem }

/-- The non-empty lines of a text, each with its 1-based number. -/
def textLines (text : List Char) : List (Nat × List Char) :=
  ((splitText '\n' text).zipIdx 1).filterMap fun p => if p.1.isEmpty then none else some (p.2, p.1)

/-- The non-empty lines that are no header: a header may only be the first of them (this model's choice, log entry 19). -/
def dataLines (text : List Char) : List (Nat × List Char) :=
  match textLines text with
  | [] => []
  | l :: ls => if isHeader l.2 then ls else l :: ls

/-- What a line `address,value` says (R57): decimal digits whose value is 0 to 999, a comma, and one to thirteen binary
digits, padded on the left to thirteen. -/
def lineSays (line : List Char) (n : Nat) (w : Word) : Prop :=
  ∃ address value : List Char, line = address ++ ',' :: value ∧
    address ≠ [] ∧ (∀ c ∈ address, c.isDigit = true) ∧
    n = Nat.ofDigits 10 (address.reverse.map fun c => c.toNat - '0'.toNat) ∧ n ≤ 999 ∧
    1 ≤ value.length ∧ value.length ≤ 13 ∧ (∀ c ∈ value, c = '0' ∨ c = '1') ∧
    w.toNat = binaryToDecimal (List.replicate (13 - value.length) '0' ++ value)

/-- R57: a line is accepted exactly when it is `address,value` as R57 says, and stands for that pair; a text all of whose
lines are accepted is the image of their pairs in order, which is well formed, and loads as `Load` of that image does; a
text with a malformed line loads nothing, and the error names the first malformed line and its reason. This model's choices
(log entry 19): no sign on an address, leading zeros allowed, no trimming, the header only as the first non-empty line, the
first malformed line named, the order of a line's checks, the reasons' names. -/
def Obligations.CsvLoadIsTheLoadOfItsImage : Prop :=
  (∀ (line : List Char) (n : Nat) (w : Word), parseLine line = .ok (n, w) ↔ lineSays line n w) ∧
  (∀ (s : State) (text : List Char),
    (∀ image, parseCsv text = .ok image ↔ (dataLines text).map (fun l => parseLine l.2) = image.map Except.ok) ∧
    (∀ e, parseCsv text = .error e ↔
      ∃ before l rest, dataLines text = before ++ l :: rest ∧ (∀ p ∈ before, ∃ v, parseLine p.2 = .ok v) ∧
        parseLine l.2 = .error e.reason ∧ l.1 = e.line) ∧
    (∀ image, parseCsv text = .ok image → (∀ p ∈ image, p.1 ≤ 999) ∧
      ∃ t : State, s.load image = some t ∧ s.loadCsv text = .ok t) ∧
    (∀ e, parseCsv text = .error e → s.loadCsv text = .error e ∧ 1 ≤ e.line ∧
      e.line ≤ (splitText '\n' text).length))

/-- R57, what lines and headers are: the pieces of a text joined by the separator are the text and none holds the separator
(a separator one character wide and no other line end is this model's choice, log entry 19); a header line is one that
contains both `address` and `value`, whatever the case of its letters. -/
def Obligations.CsvTextIsItsLinesAndHeadersNameBothColumns : Prop :=
  (∀ (sep : Char) (text : List Char),
    [sep].intercalate (splitText sep text) = text ∧ ∀ piece ∈ splitText sep text, sep ∉ piece) ∧
  (∀ line : List Char, isHeader line = true ↔
    "address".toList <:+: line.map Char.toLower ∧ "value".toList <:+: line.map Char.toLower)

/-- R98, R145: under the driver a run ends within the cap, at a `halted` core, at a fault, or at the cap with the
limit-reached event appended to the state the ticks left and nothing else changed. The cap counts ticks by decision
D16. -/
def Obligations.DriverStopsWithinTheCap : Prop :=
  ∀ (cap : Nat) (s : State),
    ((drive cap s).1 = .limitReached → ∃ t : State, ticks cap s = .next t ∧ t.phase ≠ .halted ∧
      (drive cap s).2 = { t with trace := t.trace ++ [TraceEvent.limitReached] }) ∧
    ((drive cap s).1 = .halted → ∃ k, k ≤ cap ∧ ticks k s = .next (drive cap s).2 ∧
      (drive cap s).2.phase = .halted) ∧
    (∀ r, (drive cap s).1 = .faulted r → ∃ k, k < cap ∧ ticks k s = .next (drive cap s).2 ∧
      step (drive cap s).2 = .fault r) ∧
    (∀ r, (drive cap s).1 ≠ .refused r)

/-! ### The fine granularity -/

/-- R101 with the decompositions of R103: the micro-steps of one coarse tick, run one after another from the cursor's
initial value, end in the coarse tick's state, the trace apart, or in its fault; and the registers and memory after them are
those after the coarse tick, also where it faults and so writes nothing (R114, decision D6). The decompositions the spec does
not give are this model's choice (log entry 8). -/
def Obligations.MicroStepsAddUpToTheCoarseTick : Prop :=
  ∀ s : State, s.cursor = 0 →
    mapNext State.withoutTrace
      (runWith (fineTick specMicro)
        (if s.serviceDue then 1 else max 1 (specMicro.transfers s).length) s) =
    mapNext State.withoutTrace (coarseTick s) ∧
    (stateAfter (fineTick specMicro)
        (if s.serviceDue then 1 else max 1 (specMicro.transfers s).length) s).dataView =
    (stateAfter coarseTick 1 s).dataView

/-- R101 for any `MICRO` (R103: "constrained only by rule R101"): decompositions whose transfers together have the effect of
the coarse step on registers and memory, of which no execute transfer writes `IR` (which selects the decomposition), and of
which those for a store out of range (decision D6) write nothing, add up to the coarse engine; those of `specMicro` do. That
the rest rides on the last micro-step is decision D15, and the decompositions the spec does not give are this model's choice
(log entry 8). -/
def Obligations.AnyMicroWithTheCoarseNetEffectAgreesWithCoarse : Prop :=
  (∀ μ : Micro,
    (∀ s : State, (μ.transfers s).foldl State.transfer s = s.phaseEffect) →
    (∀ op : Opcode, ∀ t ∈ μ.execute op, ∀ s : State, (t s).ir = s.ir) →
    (∀ s : State, s.storeOutOfRange → ∀ t ∈ μ.transfers s, s.transfer t = s) → μ.AgreesWithCoarse) ∧
  (∀ s : State, (specMicro.transfers s).foldl State.transfer s = s.phaseEffect) ∧
  (∀ op : Opcode, ∀ t ∈ specMicro.execute op, ∀ s : State, (t s).ir = s.ir) ∧
  (∀ s : State, s.storeOutOfRange → ∀ t ∈ specMicro.transfers s, s.transfer t = s)

/-- R104: with the fine granularity an interrupt is serviced only before the first micro-step of a fetch. Decision D15. -/
def Obligations.MicroStepsAreNotInterrupted : Prop :=
  ∀ (μ : Micro) (s t : State), fineTick μ s = .next t →
    (s.phase = .fetch ∧ s.pending ≠ [] ∧ s.cursor = 0 → t = s.serviceInterrupt) ∧
    (¬(s.phase = .fetch ∧ s.pending ≠ [] ∧ s.cursor = 0) → t.pending = s.pending ∧ t.resolved = s.resolved)
end

