-- ==== Sys2Proof/Laws/Decode.lean ====
section
/-! SUPPORT. The fields of a word as integers, and what the opcode map answers. -/

namespace Sys2Proof

theorem opcodeField_toNat (w : Word) : (opcodeField w).toNat = w.toNat / 1024 := by
  have h := w.isLt
  simp only [opcodeField, BitVec.extractLsb'_toNat, Nat.shiftRight_eq_div_pow]
  omega

theorem addrField_toNat (w : Word) : (addrField w).toNat = w.toNat % 1024 := by
  simp [addrField, BitVec.extractLsb'_toNat]

/-- The integer identity of R51. -/
theorem encode_toNat (i : Instr) : (encode i).toNat = i.mnemonic.opcode.toNat * 1024 + i.operand.toNat := by
  have ho := i.mnemonic.opcode.isLt
  have hx := i.operand.isLt
  simp only [encode, BitVec.toNat_ofNat]
  omega

@[simp] theorem opcodeField_encode (i : Instr) : opcodeField (encode i) = i.mnemonic.opcode := by
  have hx := i.operand.isLt
  apply BitVec.eq_of_toNat_eq
  rw [opcodeField_toNat, encode_toNat]
  omega

@[simp] theorem addrField_encode (i : Instr) : addrField (encode i) = i.operand := by
  have hx := i.operand.isLt
  apply BitVec.eq_of_toNat_eq
  rw [addrField_toNat, encode_toNat]
  omega

/-- The opcode map of R53 as a case list: the eight opcodes, each its instruction, and no other answer (R54). -/
theorem decodeFields_cases (op : Opcode) (x : Addr) :
    (op = 0#3 ∧ decodeFields op x = .instr (.sub x)) ∨ (op = 1#3 ∧ decodeFields op x = .instr (.load x)) ∨
    (op = 2#3 ∧ decodeFields op x = .instr (.mul x)) ∨ (op = 3#3 ∧ decodeFields op x = .instr (.div x)) ∨
    (op = 4#3 ∧ decodeFields op x = .instr (.ldmq x)) ∨ (op = 5#3 ∧ decodeFields op x = .instr (.halt x)) ∨
    (op = 6#3 ∧ decodeFields op x = .instr (.add x)) ∨ (op = 7#3 ∧ decodeFields op x = .instr (.st x)) := by
  have h : op = 0#3 ∨ op = 1#3 ∨ op = 2#3 ∨ op = 3#3 ∨ op = 4#3 ∨ op = 5#3 ∨ op = 6#3 ∨ op = 7#3 := by
    revert op
    decide
  rcases h with rfl | rfl | rfl | rfl | rfl | rfl | rfl | rfl <;> simp [decodeFields]

/-- Every word decodes, to an instruction with the word's own opcode and field (R51, R54). -/
theorem decode_total (w : Word) :
    ∃ i, decode w = .instr i ∧ i.mnemonic.opcode = opcodeField w ∧ i.operand = addrField w := by
  rcases decodeFields_cases (opcodeField w) (addrField w) with
    ⟨h, e⟩ | ⟨h, e⟩ | ⟨h, e⟩ | ⟨h, e⟩ | ⟨h, e⟩ | ⟨h, e⟩ | ⟨h, e⟩ | ⟨h, e⟩ <;>
    exact ⟨_, e, by rw [h]; rfl, rfl⟩

end Sys2Proof
end

