-- ==== Sys2Proof/Laws/State.lean ====
section
/-! SUPPORT. One lemma per field of State per update, and what an update leaves of the cells, so that no later proof
unfolds a record update. -/

namespace Sys2Proof.Machine

/-! ### `State.setMar` -/

@[simp] theorem State.setMar_pc (s : State) (v : Addr) : (s.setMar v).pc = s.pc := rfl
@[simp] theorem State.setMar_mar (s : State) (v : Addr) : (s.setMar v).mar = v := rfl
@[simp] theorem State.setMar_mbr (s : State) (v : Addr) : (s.setMar v).mbr = s.mbr := rfl
@[simp] theorem State.setMar_ir (s : State) (v : Addr) : (s.setMar v).ir = s.ir := rfl
@[simp] theorem State.setMar_ac (s : State) (v : Addr) : (s.setMar v).ac = s.ac := rfl
@[simp] theorem State.setMar_mq (s : State) (v : Addr) : (s.setMar v).mq = s.mq := rfl
@[simp] theorem State.setMar_phase (s : State) (v : Addr) : (s.setMar v).phase = s.phase := rfl
@[simp] theorem State.setMar_cursor (s : State) (v : Addr) : (s.setMar v).cursor = s.cursor := rfl
@[simp] theorem State.setMar_mem (s : State) (v : Addr) : (s.setMar v).mem = s.mem := rfl
@[simp] theorem State.setMar_pending (s : State) (v : Addr) : (s.setMar v).pending = s.pending := rfl
@[simp] theorem State.setMar_resolved (s : State) (v : Addr) : (s.setMar v).resolved = s.resolved := rfl
@[simp] theorem State.setMar_trace (s : State) (v : Addr) : (s.setMar v).trace = s.trace := rfl
@[simp] theorem State.setMar_memCell (s : State) (v : Addr) (k : Nat) : (s.setMar v).memCell k = s.memCell k := rfl
@[simp] theorem State.setMar_memRead (s : State) (v : Addr) (k : Addr) : (s.setMar v).memRead k = s.memRead k := rfl
@[simp] theorem State.setMar_operand (s : State) (v : Addr) (k : Addr) : (s.setMar v).operand k = s.operand k := rfl

/-! ### `State.setMbr` -/

@[simp] theorem State.setMbr_pc (s : State) (v : Word) : (s.setMbr v).pc = s.pc := rfl
@[simp] theorem State.setMbr_mar (s : State) (v : Word) : (s.setMbr v).mar = s.mar := rfl
@[simp] theorem State.setMbr_mbr (s : State) (v : Word) : (s.setMbr v).mbr = v := rfl
@[simp] theorem State.setMbr_ir (s : State) (v : Word) : (s.setMbr v).ir = s.ir := rfl
@[simp] theorem State.setMbr_ac (s : State) (v : Word) : (s.setMbr v).ac = s.ac := rfl
@[simp] theorem State.setMbr_mq (s : State) (v : Word) : (s.setMbr v).mq = s.mq := rfl
@[simp] theorem State.setMbr_phase (s : State) (v : Word) : (s.setMbr v).phase = s.phase := rfl
@[simp] theorem State.setMbr_cursor (s : State) (v : Word) : (s.setMbr v).cursor = s.cursor := rfl
@[simp] theorem State.setMbr_mem (s : State) (v : Word) : (s.setMbr v).mem = s.mem := rfl
@[simp] theorem State.setMbr_pending (s : State) (v : Word) : (s.setMbr v).pending = s.pending := rfl
@[simp] theorem State.setMbr_resolved (s : State) (v : Word) : (s.setMbr v).resolved = s.resolved := rfl
@[simp] theorem State.setMbr_trace (s : State) (v : Word) : (s.setMbr v).trace = s.trace := rfl
@[simp] theorem State.setMbr_memCell (s : State) (v : Word) (k : Nat) : (s.setMbr v).memCell k = s.memCell k := rfl
@[simp] theorem State.setMbr_memRead (s : State) (v : Word) (k : Addr) : (s.setMbr v).memRead k = s.memRead k := rfl
@[simp] theorem State.setMbr_operand (s : State) (v : Word) (k : Addr) : (s.setMbr v).operand k = s.operand k := rfl

/-! ### `State.setIr` -/

@[simp] theorem State.setIr_pc (s : State) (v : Opcode) : (s.setIr v).pc = s.pc := rfl
@[simp] theorem State.setIr_mar (s : State) (v : Opcode) : (s.setIr v).mar = s.mar := rfl
@[simp] theorem State.setIr_mbr (s : State) (v : Opcode) : (s.setIr v).mbr = s.mbr := rfl
@[simp] theorem State.setIr_ir (s : State) (v : Opcode) : (s.setIr v).ir = v := rfl
@[simp] theorem State.setIr_ac (s : State) (v : Opcode) : (s.setIr v).ac = s.ac := rfl
@[simp] theorem State.setIr_mq (s : State) (v : Opcode) : (s.setIr v).mq = s.mq := rfl
@[simp] theorem State.setIr_phase (s : State) (v : Opcode) : (s.setIr v).phase = s.phase := rfl
@[simp] theorem State.setIr_cursor (s : State) (v : Opcode) : (s.setIr v).cursor = s.cursor := rfl
@[simp] theorem State.setIr_mem (s : State) (v : Opcode) : (s.setIr v).mem = s.mem := rfl
@[simp] theorem State.setIr_pending (s : State) (v : Opcode) : (s.setIr v).pending = s.pending := rfl
@[simp] theorem State.setIr_resolved (s : State) (v : Opcode) : (s.setIr v).resolved = s.resolved := rfl
@[simp] theorem State.setIr_trace (s : State) (v : Opcode) : (s.setIr v).trace = s.trace := rfl
@[simp] theorem State.setIr_memCell (s : State) (v : Opcode) (k : Nat) : (s.setIr v).memCell k = s.memCell k := rfl
@[simp] theorem State.setIr_memRead (s : State) (v : Opcode) (k : Addr) : (s.setIr v).memRead k = s.memRead k := rfl
@[simp] theorem State.setIr_operand (s : State) (v : Opcode) (k : Addr) : (s.setIr v).operand k = s.operand k := rfl

/-! ### `State.setAc` -/

@[simp] theorem State.setAc_pc (s : State) (v : Word) : (s.setAc v).pc = s.pc := rfl
@[simp] theorem State.setAc_mar (s : State) (v : Word) : (s.setAc v).mar = s.mar := rfl
@[simp] theorem State.setAc_mbr (s : State) (v : Word) : (s.setAc v).mbr = s.mbr := rfl
@[simp] theorem State.setAc_ir (s : State) (v : Word) : (s.setAc v).ir = s.ir := rfl
@[simp] theorem State.setAc_ac (s : State) (v : Word) : (s.setAc v).ac = v := rfl
@[simp] theorem State.setAc_mq (s : State) (v : Word) : (s.setAc v).mq = s.mq := rfl
@[simp] theorem State.setAc_phase (s : State) (v : Word) : (s.setAc v).phase = s.phase := rfl
@[simp] theorem State.setAc_cursor (s : State) (v : Word) : (s.setAc v).cursor = s.cursor := rfl
@[simp] theorem State.setAc_mem (s : State) (v : Word) : (s.setAc v).mem = s.mem := rfl
@[simp] theorem State.setAc_pending (s : State) (v : Word) : (s.setAc v).pending = s.pending := rfl
@[simp] theorem State.setAc_resolved (s : State) (v : Word) : (s.setAc v).resolved = s.resolved := rfl
@[simp] theorem State.setAc_trace (s : State) (v : Word) : (s.setAc v).trace = s.trace := rfl
@[simp] theorem State.setAc_memCell (s : State) (v : Word) (k : Nat) : (s.setAc v).memCell k = s.memCell k := rfl
@[simp] theorem State.setAc_memRead (s : State) (v : Word) (k : Addr) : (s.setAc v).memRead k = s.memRead k := rfl
@[simp] theorem State.setAc_operand (s : State) (v : Word) (k : Addr) : (s.setAc v).operand k = s.operand k := rfl

/-! ### `State.setMq` -/

@[simp] theorem State.setMq_pc (s : State) (v : Word) : (s.setMq v).pc = s.pc := rfl
@[simp] theorem State.setMq_mar (s : State) (v : Word) : (s.setMq v).mar = s.mar := rfl
@[simp] theorem State.setMq_mbr (s : State) (v : Word) : (s.setMq v).mbr = s.mbr := rfl
@[simp] theorem State.setMq_ir (s : State) (v : Word) : (s.setMq v).ir = s.ir := rfl
@[simp] theorem State.setMq_ac (s : State) (v : Word) : (s.setMq v).ac = s.ac := rfl
@[simp] theorem State.setMq_mq (s : State) (v : Word) : (s.setMq v).mq = v := rfl
@[simp] theorem State.setMq_phase (s : State) (v : Word) : (s.setMq v).phase = s.phase := rfl
@[simp] theorem State.setMq_cursor (s : State) (v : Word) : (s.setMq v).cursor = s.cursor := rfl
@[simp] theorem State.setMq_mem (s : State) (v : Word) : (s.setMq v).mem = s.mem := rfl
@[simp] theorem State.setMq_pending (s : State) (v : Word) : (s.setMq v).pending = s.pending := rfl
@[simp] theorem State.setMq_resolved (s : State) (v : Word) : (s.setMq v).resolved = s.resolved := rfl
@[simp] theorem State.setMq_trace (s : State) (v : Word) : (s.setMq v).trace = s.trace := rfl
@[simp] theorem State.setMq_memCell (s : State) (v : Word) (k : Nat) : (s.setMq v).memCell k = s.memCell k := rfl
@[simp] theorem State.setMq_memRead (s : State) (v : Word) (k : Addr) : (s.setMq v).memRead k = s.memRead k := rfl
@[simp] theorem State.setMq_operand (s : State) (v : Word) (k : Addr) : (s.setMq v).operand k = s.operand k := rfl

/-! ### `State.setPc` -/

@[simp] theorem State.setPc_pc (s : State) (v : Addr) : (s.setPc v).pc = v := rfl
@[simp] theorem State.setPc_mar (s : State) (v : Addr) : (s.setPc v).mar = s.mar := rfl
@[simp] theorem State.setPc_mbr (s : State) (v : Addr) : (s.setPc v).mbr = s.mbr := rfl
@[simp] theorem State.setPc_ir (s : State) (v : Addr) : (s.setPc v).ir = s.ir := rfl
@[simp] theorem State.setPc_ac (s : State) (v : Addr) : (s.setPc v).ac = s.ac := rfl
@[simp] theorem State.setPc_mq (s : State) (v : Addr) : (s.setPc v).mq = s.mq := rfl
@[simp] theorem State.setPc_phase (s : State) (v : Addr) : (s.setPc v).phase = s.phase := rfl
@[simp] theorem State.setPc_cursor (s : State) (v : Addr) : (s.setPc v).cursor = s.cursor := rfl
@[simp] theorem State.setPc_mem (s : State) (v : Addr) : (s.setPc v).mem = s.mem := rfl
@[simp] theorem State.setPc_pending (s : State) (v : Addr) : (s.setPc v).pending = s.pending := rfl
@[simp] theorem State.setPc_resolved (s : State) (v : Addr) : (s.setPc v).resolved = s.resolved := rfl
@[simp] theorem State.setPc_trace (s : State) (v : Addr) : (s.setPc v).trace = s.trace := rfl
@[simp] theorem State.setPc_memCell (s : State) (v : Addr) (k : Nat) : (s.setPc v).memCell k = s.memCell k := rfl
@[simp] theorem State.setPc_memRead (s : State) (v : Addr) (k : Addr) : (s.setPc v).memRead k = s.memRead k := rfl
@[simp] theorem State.setPc_operand (s : State) (v : Addr) (k : Addr) : (s.setPc v).operand k = s.operand k := rfl

/-! ### `State.setCell` -/

@[simp] theorem State.setCell_pc (s : State) (a : Nat) (v : Word) : (s.setCell a v).pc = s.pc := rfl
@[simp] theorem State.setCell_mar (s : State) (a : Nat) (v : Word) : (s.setCell a v).mar = s.mar := rfl
@[simp] theorem State.setCell_mbr (s : State) (a : Nat) (v : Word) : (s.setCell a v).mbr = s.mbr := rfl
@[simp] theorem State.setCell_ir (s : State) (a : Nat) (v : Word) : (s.setCell a v).ir = s.ir := rfl
@[simp] theorem State.setCell_ac (s : State) (a : Nat) (v : Word) : (s.setCell a v).ac = s.ac := rfl
@[simp] theorem State.setCell_mq (s : State) (a : Nat) (v : Word) : (s.setCell a v).mq = s.mq := rfl
@[simp] theorem State.setCell_phase (s : State) (a : Nat) (v : Word) : (s.setCell a v).phase = s.phase := rfl
@[simp] theorem State.setCell_cursor (s : State) (a : Nat) (v : Word) : (s.setCell a v).cursor = s.cursor := rfl
@[simp] theorem State.setCell_mem (s : State) (a : Nat) (v : Word) : (s.setCell a v).mem = Memory.write s.mem a v := rfl
@[simp] theorem State.setCell_pending (s : State) (a : Nat) (v : Word) : (s.setCell a v).pending = s.pending := rfl
@[simp] theorem State.setCell_resolved (s : State) (a : Nat) (v : Word) : (s.setCell a v).resolved = s.resolved := rfl
@[simp] theorem State.setCell_trace (s : State) (a : Nat) (v : Word) : (s.setCell a v).trace = s.trace := rfl

/-! ### `State.emit` -/

@[simp] theorem State.emit_pc (s : State) (e : TraceEvent) : (s.emit e).pc = s.pc := rfl
@[simp] theorem State.emit_mar (s : State) (e : TraceEvent) : (s.emit e).mar = s.mar := rfl
@[simp] theorem State.emit_mbr (s : State) (e : TraceEvent) : (s.emit e).mbr = s.mbr := rfl
@[simp] theorem State.emit_ir (s : State) (e : TraceEvent) : (s.emit e).ir = s.ir := rfl
@[simp] theorem State.emit_ac (s : State) (e : TraceEvent) : (s.emit e).ac = s.ac := rfl
@[simp] theorem State.emit_mq (s : State) (e : TraceEvent) : (s.emit e).mq = s.mq := rfl
@[simp] theorem State.emit_phase (s : State) (e : TraceEvent) : (s.emit e).phase = s.phase := rfl
@[simp] theorem State.emit_cursor (s : State) (e : TraceEvent) : (s.emit e).cursor = s.cursor := rfl
@[simp] theorem State.emit_mem (s : State) (e : TraceEvent) : (s.emit e).mem = s.mem := rfl
@[simp] theorem State.emit_pending (s : State) (e : TraceEvent) : (s.emit e).pending = s.pending := rfl
@[simp] theorem State.emit_resolved (s : State) (e : TraceEvent) : (s.emit e).resolved = s.resolved := rfl
@[simp] theorem State.emit_trace (s : State) (e : TraceEvent) : (s.emit e).trace = s.trace ++ [e] := rfl
@[simp] theorem State.emit_memCell (s : State) (e : TraceEvent) (k : Nat) : (s.emit e).memCell k = s.memCell k := rfl
@[simp] theorem State.emit_memRead (s : State) (e : TraceEvent) (k : Addr) : (s.emit e).memRead k = s.memRead k := rfl
@[simp] theorem State.emit_operand (s : State) (e : TraceEvent) (k : Addr) : (s.emit e).operand k = s.operand k := rfl

/-! ### `State.enterPhase` -/

@[simp] theorem State.enterPhase_pc (s : State) (p : Phase) : (s.enterPhase p).pc = s.pc := rfl
@[simp] theorem State.enterPhase_mar (s : State) (p : Phase) : (s.enterPhase p).mar = s.mar := rfl
@[simp] theorem State.enterPhase_mbr (s : State) (p : Phase) : (s.enterPhase p).mbr = s.mbr := rfl
@[simp] theorem State.enterPhase_ir (s : State) (p : Phase) : (s.enterPhase p).ir = s.ir := rfl
@[simp] theorem State.enterPhase_ac (s : State) (p : Phase) : (s.enterPhase p).ac = s.ac := rfl
@[simp] theorem State.enterPhase_mq (s : State) (p : Phase) : (s.enterPhase p).mq = s.mq := rfl
@[simp] theorem State.enterPhase_phase (s : State) (p : Phase) : (s.enterPhase p).phase = p := rfl
@[simp] theorem State.enterPhase_cursor (s : State) (p : Phase) : (s.enterPhase p).cursor = 0 := rfl
@[simp] theorem State.enterPhase_mem (s : State) (p : Phase) : (s.enterPhase p).mem = s.mem := rfl
@[simp] theorem State.enterPhase_pending (s : State) (p : Phase) : (s.enterPhase p).pending = s.pending := rfl
@[simp] theorem State.enterPhase_resolved (s : State) (p : Phase) : (s.enterPhase p).resolved = s.resolved := rfl
@[simp] theorem State.enterPhase_trace (s : State) (p : Phase) : (s.enterPhase p).trace = s.trace := rfl
@[simp] theorem State.enterPhase_memCell (s : State) (p : Phase) (k : Nat) : (s.enterPhase p).memCell k = s.memCell k := rfl
@[simp] theorem State.enterPhase_memRead (s : State) (p : Phase) (k : Addr) : (s.enterPhase p).memRead k = s.memRead k := rfl
@[simp] theorem State.enterPhase_operand (s : State) (p : Phase) (k : Addr) : (s.enterPhase p).operand k = s.operand k := rfl

/-! ### `State.advance` -/

@[simp] theorem State.advance_pc (s : State) : (s.advance).pc = nextPC s.pc := rfl
@[simp] theorem State.advance_mar (s : State) : (s.advance).mar = s.mar := rfl
@[simp] theorem State.advance_mbr (s : State) : (s.advance).mbr = s.mbr := rfl
@[simp] theorem State.advance_ir (s : State) : (s.advance).ir = s.ir := rfl
@[simp] theorem State.advance_ac (s : State) : (s.advance).ac = s.ac := rfl
@[simp] theorem State.advance_mq (s : State) : (s.advance).mq = s.mq := rfl
@[simp] theorem State.advance_phase (s : State) : (s.advance).phase = .fetch := rfl
@[simp] theorem State.advance_cursor (s : State) : (s.advance).cursor = 0 := rfl
@[simp] theorem State.advance_mem (s : State) : (s.advance).mem = s.mem := rfl
@[simp] theorem State.advance_pending (s : State) : (s.advance).pending = s.pending := rfl
@[simp] theorem State.advance_resolved (s : State) : (s.advance).resolved = s.resolved := rfl
@[simp] theorem State.advance_trace (s : State) : (s.advance).trace = s.trace := rfl
@[simp] theorem State.advance_memCell (s : State) (k : Nat) : (s.advance).memCell k = s.memCell k := rfl
@[simp] theorem State.advance_memRead (s : State) (k : Addr) : (s.advance).memRead k = s.memRead k := rfl
@[simp] theorem State.advance_operand (s : State) (k : Addr) : (s.advance).operand k = s.operand k := rfl

/-! ### `State.complete` -/

@[simp] theorem State.complete_pc (s : State) (m : Mnemonic) : (s.complete m).pc = nextPC s.pc := rfl
@[simp] theorem State.complete_mar (s : State) (m : Mnemonic) : (s.complete m).mar = s.mar := rfl
@[simp] theorem State.complete_mbr (s : State) (m : Mnemonic) : (s.complete m).mbr = s.mbr := rfl
@[simp] theorem State.complete_ir (s : State) (m : Mnemonic) : (s.complete m).ir = s.ir := rfl
@[simp] theorem State.complete_ac (s : State) (m : Mnemonic) : (s.complete m).ac = s.ac := rfl
@[simp] theorem State.complete_mq (s : State) (m : Mnemonic) : (s.complete m).mq = s.mq := rfl
@[simp] theorem State.complete_phase (s : State) (m : Mnemonic) : (s.complete m).phase = .fetch := rfl
@[simp] theorem State.complete_cursor (s : State) (m : Mnemonic) : (s.complete m).cursor = 0 := rfl
@[simp] theorem State.complete_mem (s : State) (m : Mnemonic) : (s.complete m).mem = s.mem := rfl
@[simp] theorem State.complete_pending (s : State) (m : Mnemonic) : (s.complete m).pending = s.pending := rfl
@[simp] theorem State.complete_resolved (s : State) (m : Mnemonic) : (s.complete m).resolved = s.resolved := rfl
@[simp] theorem State.complete_trace (s : State) (m : Mnemonic) : (s.complete m).trace = s.trace ++ [.exec m] := rfl
@[simp] theorem State.complete_memCell (s : State) (m : Mnemonic) (k : Nat) : (s.complete m).memCell k = s.memCell k := rfl
@[simp] theorem State.complete_memRead (s : State) (m : Mnemonic) (k : Addr) : (s.complete m).memRead k = s.memRead k := rfl
@[simp] theorem State.complete_operand (s : State) (m : Mnemonic) (k : Addr) : (s.complete m).operand k = s.operand k := rfl

/-! ### `State.raiseDivideByZero` -/

@[simp] theorem State.raiseDivideByZero_pc (s : State) : (s.raiseDivideByZero).pc = nextPC s.pc := rfl
@[simp] theorem State.raiseDivideByZero_mar (s : State) : (s.raiseDivideByZero).mar = s.mar := rfl
@[simp] theorem State.raiseDivideByZero_mbr (s : State) : (s.raiseDivideByZero).mbr = s.mbr := rfl
@[simp] theorem State.raiseDivideByZero_ir (s : State) : (s.raiseDivideByZero).ir = s.ir := rfl
@[simp] theorem State.raiseDivideByZero_ac (s : State) : (s.raiseDivideByZero).ac = s.ac := rfl
@[simp] theorem State.raiseDivideByZero_mq (s : State) : (s.raiseDivideByZero).mq = s.mq := rfl
@[simp] theorem State.raiseDivideByZero_phase (s : State) : (s.raiseDivideByZero).phase = .fetch := rfl
@[simp] theorem State.raiseDivideByZero_cursor (s : State) : (s.raiseDivideByZero).cursor = 0 := rfl
@[simp] theorem State.raiseDivideByZero_mem (s : State) : (s.raiseDivideByZero).mem = s.mem := rfl
@[simp] theorem State.raiseDivideByZero_pending (s : State) : (s.raiseDivideByZero).pending = s.pending := rfl
@[simp] theorem State.raiseDivideByZero_resolved (s : State) : (s.raiseDivideByZero).resolved = s.resolved := rfl
@[simp] theorem State.raiseDivideByZero_trace (s : State) : (s.raiseDivideByZero).trace = s.trace ++ [.divByZero] := rfl
@[simp] theorem State.raiseDivideByZero_memCell (s : State) (k : Nat) : (s.raiseDivideByZero).memCell k = s.memCell k := rfl
@[simp] theorem State.raiseDivideByZero_memRead (s : State) (k : Addr) : (s.raiseDivideByZero).memRead k = s.memRead k := rfl
@[simp] theorem State.raiseDivideByZero_operand (s : State) (k : Addr) : (s.raiseDivideByZero).operand k = s.operand k := rfl

/-! ### `State.raiseUnknownOpcode` -/

@[simp] theorem State.raiseUnknownOpcode_pc (s : State) : (s.raiseUnknownOpcode).pc = nextPC s.pc := rfl
@[simp] theorem State.raiseUnknownOpcode_mar (s : State) : (s.raiseUnknownOpcode).mar = s.mar := rfl
@[simp] theorem State.raiseUnknownOpcode_mbr (s : State) : (s.raiseUnknownOpcode).mbr = s.mbr := rfl
@[simp] theorem State.raiseUnknownOpcode_ir (s : State) : (s.raiseUnknownOpcode).ir = s.ir := rfl
@[simp] theorem State.raiseUnknownOpcode_ac (s : State) : (s.raiseUnknownOpcode).ac = s.ac := rfl
@[simp] theorem State.raiseUnknownOpcode_mq (s : State) : (s.raiseUnknownOpcode).mq = s.mq := rfl
@[simp] theorem State.raiseUnknownOpcode_phase (s : State) : (s.raiseUnknownOpcode).phase = .fetch := rfl
@[simp] theorem State.raiseUnknownOpcode_cursor (s : State) : (s.raiseUnknownOpcode).cursor = 0 := rfl
@[simp] theorem State.raiseUnknownOpcode_mem (s : State) : (s.raiseUnknownOpcode).mem = s.mem := rfl
@[simp] theorem State.raiseUnknownOpcode_pending (s : State) : (s.raiseUnknownOpcode).pending = s.pending := rfl
@[simp] theorem State.raiseUnknownOpcode_resolved (s : State) : (s.raiseUnknownOpcode).resolved = s.resolved := rfl
@[simp] theorem State.raiseUnknownOpcode_trace (s : State) : (s.raiseUnknownOpcode).trace = s.trace ++ [.unknownOpcode] := rfl
@[simp] theorem State.raiseUnknownOpcode_memCell (s : State) (k : Nat) : (s.raiseUnknownOpcode).memCell k = s.memCell k := rfl
@[simp] theorem State.raiseUnknownOpcode_memRead (s : State) (k : Addr) : (s.raiseUnknownOpcode).memRead k = s.memRead k := rfl
@[simp] theorem State.raiseUnknownOpcode_operand (s : State) (k : Addr) : (s.raiseUnknownOpcode).operand k = s.operand k := rfl

/-! ### `State.trigger` -/

@[simp] theorem State.trigger_pc (s : State) (i : Config.IntId) : (s.trigger i).pc = s.pc := rfl
@[simp] theorem State.trigger_mar (s : State) (i : Config.IntId) : (s.trigger i).mar = s.mar := rfl
@[simp] theorem State.trigger_mbr (s : State) (i : Config.IntId) : (s.trigger i).mbr = s.mbr := rfl
@[simp] theorem State.trigger_ir (s : State) (i : Config.IntId) : (s.trigger i).ir = s.ir := rfl
@[simp] theorem State.trigger_ac (s : State) (i : Config.IntId) : (s.trigger i).ac = s.ac := rfl
@[simp] theorem State.trigger_mq (s : State) (i : Config.IntId) : (s.trigger i).mq = s.mq := rfl
@[simp] theorem State.trigger_phase (s : State) (i : Config.IntId) : (s.trigger i).phase = s.phase := rfl
@[simp] theorem State.trigger_cursor (s : State) (i : Config.IntId) : (s.trigger i).cursor = s.cursor := rfl
@[simp] theorem State.trigger_mem (s : State) (i : Config.IntId) : (s.trigger i).mem = s.mem := rfl
@[simp] theorem State.trigger_pending (s : State) (i : Config.IntId) : (s.trigger i).pending = s.pending ++ [i] := rfl
@[simp] theorem State.trigger_resolved (s : State) (i : Config.IntId) : (s.trigger i).resolved = s.resolved := rfl
@[simp] theorem State.trigger_trace (s : State) (i : Config.IntId) : (s.trigger i).trace = s.trace := rfl
@[simp] theorem State.trigger_memCell (s : State) (i : Config.IntId) (k : Nat) : (s.trigger i).memCell k = s.memCell k := rfl
@[simp] theorem State.trigger_memRead (s : State) (i : Config.IntId) (k : Addr) : (s.trigger i).memRead k = s.memRead k := rfl
@[simp] theorem State.trigger_operand (s : State) (i : Config.IntId) (k : Addr) : (s.trigger i).operand k = s.operand k := rfl

end Sys2Proof.Machine
end

