-- ==== Sys2Proof/Laws/Memory.lean ====
section
/-! SUPPORT. The laws of memory: a read after a write, the cells a write leaves alone, and that every memory operation
keeps the canonical form. -/

namespace Sys2Proof.Machine

/-! ### The list form -/

theorem Memory.cell_write_same (m : Memory) (a : Nat) (v : Word) : Memory.cell (Memory.write m a v) a = some v := by
  induction m with
  | nil => simp [Memory.write, Memory.cell]
  | cons p rest ih =>
    obtain ⟨b, w⟩ := p
    simp only [Memory.write]
    split
    · simp [Memory.cell]
    · split
      · simp [Memory.cell]
      · rename_i h
        simp [Memory.cell, Ne.symm h, ih]

theorem Memory.cell_write_other (m : Memory) {a b : Nat} (h : b ≠ a) (v : Word) :
    Memory.cell (Memory.write m a v) b = Memory.cell m b := by
  induction m with
  | nil => simp [Memory.write, Memory.cell, Ne.symm h]
  | cons p rest ih =>
    obtain ⟨c, w⟩ := p
    simp only [Memory.write]
    split
    · simp [Memory.cell, Ne.symm h]
    · split
      · rename_i hc
        subst hc
        simp [Memory.cell, Ne.symm h]
      · simp [Memory.cell, ih]

theorem Memory.cell_write (m : Memory) (a b : Nat) (v : Word) :
    Memory.cell (Memory.write m a v) b = if b = a then some v else Memory.cell m b := by
  by_cases h : b = a
  · rw [if_pos h, h, Memory.cell_write_same]
  · rw [if_neg h, Memory.cell_write_other m h]

theorem Memory.mem_write {m : Memory} {a : Nat} {v : Word} {p : Nat × Word} (h : p ∈ Memory.write m a v) :
    p = (a, v) ∨ p ∈ m := by
  induction m with
  | nil => simpa [Memory.write] using h
  | cons q rest ih =>
    obtain ⟨c, w⟩ := q
    simp only [Memory.write] at h
    split at h
    · simpa using h
    · split at h
      · rcases List.mem_cons.mp h with h | h
        · exact .inl h
        · exact .inr (List.mem_cons_of_mem _ h)
      · rcases List.mem_cons.mp h with h | h
        · exact .inr (by simp [h])
        · rcases ih h with h | h
          · exact .inl h
          · exact .inr (List.mem_cons_of_mem _ h)

/-! ### The canonical form -/

theorem Memory.write_wf {m : Memory} (h : Memory.wf m) {a : Nat} (ha : a < Config.memSize) (v : Word) :
    Memory.wf (Memory.write m a v) := by
  refine ⟨?_, fun p hp => ?_⟩
  · have hs := h.1
    clear h ha
    induction m with
    | nil => simp [Memory.write]
    | cons q rest ih =>
      obtain ⟨c, w⟩ := q
      obtain ⟨h1, h2⟩ := List.pairwise_cons.mp hs
      simp only [Memory.write]
      split
      · rename_i hlt
        refine List.pairwise_cons.mpr ⟨fun p hp => ?_, hs⟩
        rcases List.mem_cons.mp hp with rfl | hp
        · exact hlt
        · exact Nat.lt_trans hlt (h1 p hp)
      · split
        · rename_i heq
          subst heq
          exact List.pairwise_cons.mpr ⟨h1, h2⟩
        · refine List.pairwise_cons.mpr ⟨fun p hp => ?_, ih h2⟩
          rcases Memory.mem_write hp with rfl | hp
          · simp only
            omega
          · exact h1 p hp
  · rcases Memory.mem_write hp with rfl | hp
    · exact ha
    · exact h.2 p hp

theorem Memory.empty_wf : Memory.wf [] := by decide

theorem Memory.clearProgram_wf {m : Memory} (h : Memory.wf m) : Memory.wf m.clearProgram :=
  ⟨h.1.sublist List.filter_sublist, fun p hp => h.2 p (List.mem_filter.mp hp).1⟩

theorem Memory.writeAll_wf {m : Memory} (h : Memory.wf m) (image : Image)
    (hi : ∀ p ∈ image, p.1 < Config.memSize) : Memory.wf (m.writeAll image) := by
  induction image generalizing m with
  | nil => exact h
  | cons p ps ih =>
    exact ih (Memory.write_wf h (hi p (by simp)) p.2) fun q hq => hi q (by simp [hq])

/-! ### Cells of a state -/

theorem State.memCell_of_lt (s : State) {a : Nat} (h : a < Config.memSize) : s.memCell a = Memory.cell s.mem a :=
  if_pos h

/-- There is no cell at 1004 and above (R31). -/
theorem State.memCell_of_ge (s : State) {a : Nat} (h : Config.memSize ≤ a) : s.memCell a = none :=
  if_neg (Nat.not_lt.mpr h)

theorem State.memCell_setCell (s : State) (a b : Nat) (v : Word) :
    (s.setCell a v).memCell b = if b = a ∧ a < Config.memSize then some v else s.memCell b := by
  unfold State.memCell
  simp only [State.setCell_mem, Memory.cell_write]
  by_cases hb : b = a
  · subst hb
    by_cases hm : b < Config.memSize <;> simp [hm]
  · simp [hb]

@[simp] theorem State.memCell_setCell_same (s : State) {a : Nat} (h : a < Config.memSize) (v : Word) :
    (s.setCell a v).memCell a = some v := by
  simp [State.memCell_setCell, h]

@[simp] theorem State.memCell_setCell_other (s : State) {a b : Nat} (h : b ≠ a) (v : Word) :
    (s.setCell a v).memCell b = s.memCell b := by
  simp [State.memCell_setCell, h]

theorem State.setCell_wf {s : State} (h : s.mem.wf) {a : Nat} (ha : a < Config.memSize) (v : Word) :
    (s.setCell a v).mem.wf := Memory.write_wf h ha v

/-- What `MemWrite` can answer (R35, R36). -/
theorem State.memWrite_cases (s : State) (a : Addr) (v : Word) :
    (a.toNat < Config.memSize ∧ s.memWrite a v = .next (s.setCell a.toNat v)) ∨
    (Config.memSize ≤ a.toNat ∧ s.memWrite a v = .fault (.storeRange a)) := by
  unfold State.memWrite
  by_cases h : a.toNat < Config.memSize
  · exact .inl ⟨h, if_pos h⟩
  · exact .inr ⟨Nat.not_lt.mp h, if_neg h⟩

end Sys2Proof.Machine
end

