-- ==== Sys2Proof/Laws/Step.lean ====
section
/-! SUPPORT. What each shared operation can do, once: the arithmetic unit, the execute step, the interrupt service and the
tick. Later proofs cite these instead of unfolding. -/

namespace Sys2Proof.Machine

/-! ### The arithmetic unit -/

theorem aluAdd_toNat (a m : Word) : (aluAdd a m).toNat = (a.toNat + m.toNat) % 8192 := by simp [aluAdd]

theorem aluSub_toNat (a m : Word) : (aluSub a m).toNat = (a.toNat + 8192 - m.toNat) % 8192 := by
  have ha := a.isLt
  have hm := m.isLt
  simp only [aluSub, BitVec.toNat_ofInt]
  omega

theorem aluProduct_lt (a m : Word) : aluProduct a m < 8192 * 8192 :=
  Nat.mul_lt_mul'' a.isLt m.isLt

theorem aluMulLow_toNat (a m : Word) : (aluMulLow a m).toNat = a.toNat * m.toNat % 8192 := by
  simp [aluMulLow, aluProduct]

theorem aluMulHigh_toNat (a m : Word) : (aluMulHigh a m).toNat = a.toNat * m.toNat / 8192 := by
  have h := aluProduct_lt a m
  simp only [aluMulHigh, BitVec.toNat_ofNat]
  unfold aluProduct at *
  omega

theorem aluQuotient_toNat (a m : Word) : (aluQuotient a m).toNat = a.toNat / m.toNat := by
  have h := Nat.div_le_self a.toNat m.toNat
  have ha := a.isLt
  simp only [aluQuotient, BitVec.toNat_ofNat]
  exact Nat.mod_eq_of_lt (by omega)

theorem aluRemainder_toNat (a m : Word) : (aluRemainder a m).toNat = a.toNat % m.toNat := by
  have h := Nat.mod_le a.toNat m.toNat
  have ha := a.isLt
  simp only [aluRemainder, BitVec.toNat_ofNat]
  exact Nat.mod_eq_of_lt (by omega)

/-- The program counter stays in the program space (R67). -/
theorem nextPC_toNat (p : Addr) : (nextPC p).toNat = (p.toNat + 1) % 1000 := by
  simp only [nextPC, Config.progSpace, BitVec.toNat_ofNat]
  omega

/-! ### The execute step -/

/-- What a store can answer (R82). -/
theorem execSt_cases (x : Addr) (s : State) :
    (x.toNat < Config.memSize ∧ execSt x s = .next ((s.setCell x.toNat s.ac).complete .ST)) ∨
    (Config.memSize ≤ x.toNat ∧ execSt x s = .fault (.storeRange x)) := by
  rcases s.memWrite_cases (effectiveAddr x) s.ac with ⟨h, e⟩ | ⟨h, e⟩
  · exact .inl ⟨h, by simp only [execSt, e]; rfl⟩
  · exact .inr ⟨h, by simp only [execSt, e]; rfl⟩

/-- What a division can answer (R89, R90). -/
theorem execDiv_cases (x : Addr) (s : State) :
    (s.operand x = 0#13 ∧ execDiv x s = .next s.raiseDivideByZero) ∨
    (s.operand x ≠ 0#13 ∧ execDiv x s = .next ((effectDiv x s).complete .DIV)) := by
  unfold execDiv divisorIsZero
  by_cases h : s.operand x = 0#13
  · exact .inl ⟨h, by simp [h]⟩
  · exact .inr ⟨h, by simp [h]⟩

/-- The execute step is the meaning of the instruction that `IR` and `MAR` hold; the unknown-opcode arm is never taken
(R54, R66). -/
theorem executeStep_eq_exec (s : State) :
    ∃ i : Instr, decodeFields s.ir s.mar = .instr i ∧ i.mnemonic.opcode = s.ir ∧ i.operand = s.mar ∧
      executeStep s = exec i s := by
  rcases decodeFields_cases s.ir s.mar with ⟨h, e⟩ | ⟨h, e⟩ | ⟨h, e⟩ | ⟨h, e⟩ | ⟨h, e⟩ | ⟨h, e⟩ | ⟨h, e⟩ | ⟨h, e⟩ <;>
    exact ⟨_, e, by rw [h]; rfl, rfl, by simp only [executeStep, e]⟩

/-! ### The interrupt service -/

theorem State.initCounter_eq (s : State) :
    s.initCounter = s ∨ s.memCell 1003 = none ∧ s.initCounter = s.setCell 1003 0#13 := by
  unfold State.initCounter
  split
  · rename_i h
    exact .inr ⟨h, rfl⟩
  · exact .inl rfl

/-- Step 2 leaves the counter's reading and every other cell alone (R120). -/
theorem State.initCounter_memCell (s : State) (a : Nat) :
    s.initCounter.memCell a = if a = 1003 then some ((s.memCell 1003).getD 0#13) else s.memCell a := by
  unfold State.initCounter
  split
  · rename_i h
    simp only [Config.addrCounter] at h
    simp [State.memCell_setCell, Config.addrCounter, Config.memSize, h]
  · rename_i v h
    simp only [Config.addrCounter] at h
    split
    · rename_i ha
      simp [ha, h]
    · rfl

theorem State.savePc_memCell (s : State) (a : Nat) :
    s.savePc.memCell a = if a = 1001 then some (s.pc.setWidth 13) else s.memCell a := by
  simp [State.savePc, State.memCell_setCell, Config.addrSavedPc, Config.memSize]

/-- The word the service uses and the value its step 4 adds, in terms of the state before the service (R120, R122). -/
def State.serviceOperand (s : State) : Word :=
  let a := (addrField s.serviceWord).toNat
  if a = 1001 then s.pc.setWidth 13
  else if a = 1003 then (s.memCell 1003).getD 0#13
  else s.memRead (addrField s.serviceWord)

/-- The counter after a service (R120 step 5). -/
def State.nextCounter (s : State) : Word := BitVec.ofNat 13 (((s.memCell 1003).getD 0#13).toNat + 1)

/-- The cells after a service: the saved `PC`, the counter, and no other (R120, R121). -/
theorem State.serviceInterrupt_memCell (s : State) (a : Nat) :
    s.serviceInterrupt.memCell a =
      if a = 1003 then some s.nextCounter else if a = 1001 then some (s.pc.setWidth 13) else s.memCell a := by
  have hr : ∀ t : State, ∀ k, t.retireInterrupt.memCell k = t.memCell k := by
    intro t k
    unfold State.retireInterrupt
    split <;> rfl
  have hm : s.savePc.memCell 1003 = s.memCell 1003 := by simp [State.savePc_memCell]
  simp only [State.serviceInterrupt, hr, State.countInterrupt, State.addServiceOperand, State.memCell_setCell,
    State.setAc_memCell, State.initCounter_memCell, Config.addrCounter, Config.memSize, hm, State.savePc_memCell,
    State.nextCounter]
  by_cases h3 : a = 1003
  · simp [h3]
  · simp [h3]

/-- The registers, the queue and the trace after a service (R120, R121). -/
theorem State.serviceInterrupt_registers {s : State} {id : Config.IntId} {rest : List Config.IntId}
    (h : s.pending = id :: rest) :
    let t := s.serviceInterrupt
    t.pc = s.pc ∧ t.mar = s.mar ∧ t.mbr = s.mbr ∧ t.ir = s.ir ∧ t.mq = s.mq ∧ t.phase = s.phase ∧
    t.cursor = s.cursor ∧ t.pending = rest ∧ t.resolved = s.resolved + 1 ∧
    t.ac = BitVec.ofNat 13 (s.ac.toNat + s.serviceOperand.toNat) ∧
    t.trace = s.trace ++ [.interrupt id s.pc s.nextCounter] := by
  have hc : ∀ u : State, u.initCounter.pending = u.pending ∧ u.initCounter.pc = u.pc ∧ u.initCounter.mar = u.mar ∧
      u.initCounter.mbr = u.mbr ∧ u.initCounter.ir = u.ir ∧ u.initCounter.mq = u.mq ∧ u.initCounter.phase = u.phase ∧
      u.initCounter.cursor = u.cursor ∧ u.initCounter.resolved = u.resolved ∧ u.initCounter.ac = u.ac ∧
      u.initCounter.trace = u.trace := by
    intro u
    rcases u.initCounter_eq with e | ⟨-, e⟩ <;> rw [e] <;> exact ⟨rfl, rfl, rfl, rfl, rfl, rfl, rfl, rfl, rfl, rfl, rfl⟩
  obtain ⟨c1, c2, c3, c4, c5, c6, c7, c8, c9, c10, c11⟩ := hc s.savePc
  have hw : s.savePc.initCounter.serviceWord = s.serviceWord := by
    simp [State.serviceWord, State.initCounter_memCell, State.savePc_memCell, Config.addrIsr]
  have hm : s.savePc.memCell 1003 = s.memCell 1003 := by simp [State.savePc_memCell]
  have ho : s.savePc.initCounter.memRead (addrField s.serviceWord) = s.serviceOperand := by
    simp only [State.memRead, State.initCounter_memCell, State.savePc_memCell, State.serviceOperand]
    by_cases h3 : (addrField s.serviceWord).toNat = 1003
    · simp [h3]
    · by_cases h1 : (addrField s.serviceWord).toNat = 1001
      · simp [h1]
      · simp [h1, h3]
  obtain ⟨u, hu⟩ : ∃ u, u = s.savePc.initCounter.addServiceOperand.countInterrupt := ⟨_, rfl⟩
  have hn : (u.memCell 1003).getD 0#13 = s.nextCounter := by
    simp [hu, State.countInterrupt, State.addServiceOperand, State.memCell_setCell, Config.addrCounter, Config.memSize,
      State.initCounter_memCell, hm, State.nextCounter]
  have hu' : u.pc = s.pc ∧ u.mar = s.mar ∧ u.mbr = s.mbr ∧ u.ir = s.ir ∧ u.mq = s.mq ∧ u.phase = s.phase ∧
      u.cursor = s.cursor ∧ u.pending = id :: rest ∧ u.resolved = s.resolved ∧
      u.ac = BitVec.ofNat 13 (s.ac.toNat + s.serviceOperand.toNat) ∧ u.trace = s.trace := by
    simp [hu, State.countInterrupt, State.addServiceOperand, c1, c2, c3, c4, c5, c6, c7, c8, c9, c10, c11, hw, ho]
    simp [State.savePc, h]
  have hs : s.serviceInterrupt = State.emit { u with pending := rest, resolved := u.resolved + 1 }
      (.interrupt id u.pc ((u.memCell 1003).getD 0#13)) := by
    simp only [State.serviceInterrupt, ← hu, State.retireInterrupt, hu'.2.2.2.2.2.2.2.1]
    rfl
  obtain ⟨u1, u2, u3, u4, u5, u6, u7, -, u9, u10, u11⟩ := hu'
  rw [hs, hn]
  simp [u1, u2, u3, u4, u5, u6, u7, u9, u10, u11]

/-- The memory after a service, as data: the saved `PC`, an empty counter made 0, the counter counted up. It depends on
the memory and `PC` before the service alone. -/
theorem State.serviceInterrupt_mem (s : State) :
    s.serviceInterrupt.mem =
      let saved := Memory.write s.mem 1001 (s.pc.setWidth 13)
      Memory.write (if s.memCell 1003 = none then Memory.write saved 1003 0#13 else saved) 1003 s.nextCounter := by
  have hr : ∀ t : State, t.retireInterrupt.mem = t.mem := by
    intro t
    unfold State.retireInterrupt
    split <;> rfl
  have hm : s.savePc.memCell 1003 = s.memCell 1003 := by simp [State.savePc_memCell]
  have hi : s.savePc.initCounter.mem =
      if s.memCell 1003 = none then Memory.write s.savePc.mem 1003 0#13 else s.savePc.mem := by
    unfold State.initCounter
    simp only [Config.addrCounter, hm]
    cases s.memCell 1003 <;> rfl
  have hc : (s.savePc.initCounter.addServiceOperand.memCell 1003).getD 0#13 = (s.memCell 1003).getD 0#13 := by
    show (s.savePc.initCounter.memCell 1003).getD 0#13 = _
    simp [State.initCounter_memCell, hm]
  simp only [State.serviceInterrupt, hr, State.countInterrupt, State.setCell_mem, Config.addrCounter, hc]
  rw [show s.savePc.initCounter.addServiceOperand.mem = s.savePc.initCounter.mem from rfl, hi]
  rfl

/-- A service keeps the memory canonical. -/
theorem State.serviceInterrupt_wf {s : State} (h : s.mem.wf) : s.serviceInterrupt.mem.wf := by
  have hr : ∀ t : State, t.mem.wf → t.retireInterrupt.mem.wf := by
    intro t ht
    unfold State.retireInterrupt
    split <;> exact ht
  have h1 : s.savePc.mem.wf := State.setCell_wf h (by decide) _
  have h2 : s.savePc.initCounter.mem.wf := by
    rcases s.savePc.initCounter_eq with e | ⟨-, e⟩
    · rw [e]
      exact h1
    · rw [e]
      exact State.setCell_wf h1 (by decide) _
  exact hr _ (State.setCell_wf (s := s.savePc.initCounter.addServiceOperand) h2 (by decide) _)

/-! ### The tick -/

@[simp] theorem ticks_zero (s : State) : ticks 0 s = .next s := rfl

theorem ticks_succ_of_next {s t : State} (h : step s = .next t) (n : Nat) : ticks (n + 1) s = ticks n t := by
  simp only [ticks, runWith, h]

/-- A run of `m + n` ticks is a run of `m` and then one of `n`. -/
theorem ticks_add {s t : State} {m : Nat} (h : ticks m s = .next t) (n : Nat) : ticks (m + n) s = ticks n t := by
  induction m generalizing s with
  | zero =>
    cases h
    rw [Nat.zero_add]
  | succ m ih =>
    rw [Nat.add_right_comm]
    cases hu : step s with
    | next u =>
      rw [ticks_succ_of_next hu] at h ⊢
      exact ih h
    | fault r => simp [ticks, runWith, hu] at h
    | refused r => simp [ticks, runWith, hu] at h

/-- The host's own run of the core is `ticks`. -/
theorem core_run_eq_ticks (n : Nat) (s : State) : Sys2Proof.core.run n s = ticks n s := by
  induction n generalizing s with
  | zero => rfl
  | succ n ih =>
    have hs : Sys2Proof.core.step s = step s := rfl
    simp only [ticks, runWith, Host.Core.run, hs]
    cases step s with
    | next t => exact ih t
    | fault r => rfl
    | refused r => rfl

/-- The core is built coarse: one step is one coarse tick. -/
theorem step_eq_coarseTick (s : State) : step s = coarseTick s := rfl

theorem State.serviceDue_iff (s : State) : s.serviceDue = true ↔ s.phase = .fetch ∧ s.pending ≠ [] := by
  simp [State.serviceDue]

/-- Everything a tick can do (R61, R62, R69). -/
theorem step_cases (s : State) :
    (s.phase = .fetch ∧ s.pending ≠ [] ∧ step s = .next s.serviceInterrupt) ∨
    (s.phase = .idle ∧ step s = .next (idleStep s)) ∨
    (s.phase = .fetch ∧ s.pending = [] ∧ step s = .next (fetchStep s)) ∨
    (s.phase = .decode ∧ step s = .next (decodeStep s)) ∨
    (s.phase = .execute ∧ step s = executeStep s) ∨
    (s.phase = .halted ∧ step s = .next s) := by
  rw [step_eq_coarseTick]
  unfold coarseTick engineStep
  by_cases hd : s.serviceDue = true
  · obtain ⟨hp, hq⟩ := s.serviceDue_iff.mp hd
    exact .inl ⟨hp, hq, by simp [hd]⟩
  · simp only [hd]
    have hq : s.phase = .fetch → s.pending = [] := by
      intro hp
      by_contra hq
      exact hd (s.serviceDue_iff.mpr ⟨hp, hq⟩)
    cases hp : s.phase
    · exact .inr (.inl ⟨rfl, by simp⟩)
    · exact .inr (.inr (.inl ⟨rfl, hq hp, by simp⟩))
    · exact .inr (.inr (.inr (.inl ⟨rfl, by simp⟩)))
    · exact .inr (.inr (.inr (.inr (.inl ⟨rfl, by simp⟩))))
    · exact .inr (.inr (.inr (.inr (.inr ⟨rfl, by simp⟩))))

/-- The tick in each phase, with the phase known. -/
theorem step_service {s : State} (h : s.phase = .fetch) (hq : s.pending ≠ []) : step s = .next s.serviceInterrupt := by
  rcases step_cases s with e | e | e | e | e | e <;> simp_all

theorem step_idle {s : State} (h : s.phase = .idle) : step s = .next (idleStep s) := by
  rcases step_cases s with e | e | e | e | e | e <;> simp_all

theorem step_fetch {s : State} (h : s.phase = .fetch) (hq : s.pending = []) : step s = .next (fetchStep s) := by
  rcases step_cases s with e | e | e | e | e | e <;> simp_all

theorem step_decode {s : State} (h : s.phase = .decode) : step s = .next (decodeStep s) := by
  rcases step_cases s with e | e | e | e | e | e <;> simp_all

theorem step_execute {s : State} (h : s.phase = .execute) : step s = executeStep s := by
  rcases step_cases s with e | e | e | e | e | e <;> simp_all

theorem step_halted {s : State} (h : s.phase = .halted) : step s = .next s := by
  rcases step_cases s with e | e | e | e | e | e <;> simp_all

/-- Everything an execute tick can do (R66): a store out of range faults, a store in range writes its cell, `HALT` halts,
and the six others change only `MBR`, `AC` and `MQ` before they move on. -/
theorem step_execute_cases {s : State} (h : s.phase = .execute) :
    (s.ir = 7#3 ∧ Config.memSize ≤ s.mar.toNat ∧ step s = .fault (.storeRange s.mar)) ∨
    (s.ir = 7#3 ∧ s.mar.toNat < Config.memSize ∧ step s = .next ((s.setCell s.mar.toNat s.ac).complete .ST)) ∨
    (s.ir = 5#3 ∧ step s = .next ((s.emit .halt).enterPhase .halted)) ∨
    (s.ir ≠ 7#3 ∧ s.ir ≠ 5#3 ∧ ∃ (b a q : Word) (e : TraceEvent),
      step s = .next ((((s.setMbr b).setAc a).setMq q).emit e).advance) := by
  rw [step_execute h]
  obtain ⟨i, _, ho, hx, ee⟩ := executeStep_eq_exec s
  rw [ee]
  cases i with
  | st x =>
    simp only [Instr.mnemonic, Mnemonic.opcode, Instr.operand] at ho hx
    subst hx
    rcases execSt_cases s.mar s with ⟨h', e⟩ | ⟨h', e⟩
    · exact .inr (.inl ⟨ho.symm, h', e⟩)
    · exact .inl ⟨ho.symm, h', e⟩
  | halt x => exact .inr (.inr (.inl ⟨ho.symm, rfl⟩))
  | div x =>
    refine .inr (.inr (.inr ⟨by simp [← ho, Instr.mnemonic, Mnemonic.opcode],
      by simp [← ho, Instr.mnemonic, Mnemonic.opcode], ?_⟩))
    rcases execDiv_cases x s with ⟨-, e⟩ | ⟨-, e⟩
    · exact ⟨s.mbr, s.ac, s.mq, .divByZero, e⟩
    · exact ⟨s.mbr, aluQuotient s.ac (s.operand x), aluRemainder s.ac (s.operand x), .exec .DIV, e⟩
  | sub x =>
    exact .inr (.inr (.inr ⟨by simp [← ho, Instr.mnemonic, Mnemonic.opcode],
      by simp [← ho, Instr.mnemonic, Mnemonic.opcode], s.mbr, aluSub s.ac (s.operand x), s.mq, .exec .SUB, rfl⟩))
  | load x =>
    exact .inr (.inr (.inr ⟨by simp [← ho, Instr.mnemonic, Mnemonic.opcode],
      by simp [← ho, Instr.mnemonic, Mnemonic.opcode], s.operand x, s.operand x, s.mq, .exec .LOAD, rfl⟩))
  | mul x =>
    exact .inr (.inr (.inr ⟨by simp [← ho, Instr.mnemonic, Mnemonic.opcode],
      by simp [← ho, Instr.mnemonic, Mnemonic.opcode], s.mbr, aluMulLow s.ac (s.operand x), aluMulHigh s.ac (s.operand x), .exec .MUL, rfl⟩))
  | ldmq x =>
    exact .inr (.inr (.inr ⟨by simp [← ho, Instr.mnemonic, Mnemonic.opcode],
      by simp [← ho, Instr.mnemonic, Mnemonic.opcode], s.mbr, s.ac, s.operand x, .exec .LDMQ, rfl⟩))
  | add x =>
    exact .inr (.inr (.inr ⟨by simp [← ho, Instr.mnemonic, Mnemonic.opcode],
      by simp [← ho, Instr.mnemonic, Mnemonic.opcode], s.mbr, aluAdd s.ac (s.operand x), s.mq, .exec .ADD, rfl⟩))

end Sys2Proof.Machine
end

