-- ==== Sys2Proof/Laws/Micro.lean ====
section
/-! SUPPORT. What a transfer, a micro-step and a tick of the fine engine can do, each said once. -/

namespace Sys2Proof.Machine

/-- A store's effect: the cell, where there is one (R35, R36). -/
theorem effectSt_eq (x : Addr) (s : State) :
    effectSt x s = if x.toNat < Config.memSize then s.setCell x.toNat s.ac else s := by
  rcases s.memWrite_cases (effectiveAddr x) s.ac with ⟨h, e⟩ | ⟨h, e⟩
  · rw [if_pos (show x.toNat < Config.memSize from h)]
    simp only [effectSt, e]
    rfl
  · rw [if_neg (Nat.not_lt.mpr (show Config.memSize ≤ x.toNat from h))]
    simp only [effectSt, e]

/-! ### `State.transfer`: what no transfer writes -/

@[simp] theorem State.transfer_pc (s : State) (t : Transfer) : (s.transfer t).pc = s.pc := rfl
@[simp] theorem State.transfer_phase (s : State) (t : Transfer) : (s.transfer t).phase = s.phase := rfl
@[simp] theorem State.transfer_cursor (s : State) (t : Transfer) : (s.transfer t).cursor = s.cursor := rfl
@[simp] theorem State.transfer_pending (s : State) (t : Transfer) : (s.transfer t).pending = s.pending := rfl
@[simp] theorem State.transfer_resolved (s : State) (t : Transfer) : (s.transfer t).resolved = s.resolved := rfl
@[simp] theorem State.transfer_trace (s : State) (t : Transfer) : (s.transfer t).trace = s.trace := rfl

/-- A transfer neither sees nor writes the cursor and the trace. -/
theorem State.transfer_atCursor (s : State) (t : Transfer) (c : Nat) (es : List TraceEvent) :
    State.transfer { s with cursor := c, trace := es } t = { s.transfer t with cursor := c, trace := es } := rfl

/-- The whole effect of an instruction as one transfer is that effect: no effect reads or writes more than the registers
and the memory. -/
theorem State.transfer_wholeEffect (s : State) : s.transfer wholeEffect = wholeEffect s := by
  unfold State.transfer wholeEffect
  have hv : decodeFields s.dataView.ir s.dataView.mar = decodeFields s.ir s.mar := rfl
  rw [hv]
  cases decodeFields s.ir s.mar with
  | rejected e => rfl
  | instr i =>
    cases i with
    | div x =>
      have ho : s.dataView.operand x = s.operand x := rfl
      simp only [Instr.effect, ho]
      split <;> rfl
    | st x =>
      simp only [Instr.effect, effectSt_eq]
      split <;> rfl
    | _ => rfl

/-- No instruction's effect writes `IR` (R15). -/
theorem wholeEffect_ir (s : State) : (wholeEffect s).ir = s.ir := by
  unfold wholeEffect
  split
  · rename_i i _
    cases i with
    | div x =>
      simp only [Instr.effect]
      split <;> rfl
    | st x =>
      simp only [Instr.effect, effectSt_eq]
      split <;> rfl
    | _ => rfl
  · rfl

/-- The whole effect of a store out of range writes nothing (R114). -/
theorem transfer_wholeEffect_storeOutOfRange {s : State} (h : s.storeOutOfRange) : s.transfer wholeEffect = s := by
  obtain ⟨_, hir, hmar⟩ := h
  have hd : decodeFields s.ir s.mar = .instr (.st s.mar) := by rw [hir]; rfl
  rw [s.transfer_wholeEffect]
  simp only [wholeEffect, hd, Instr.effect, effectSt_eq, if_neg (Nat.not_lt.mpr hmar)]

/-! ### `stateAfter` -/

/-- A run that answers a next state leaves that state. -/
theorem stateAfter_of_next {f : State → Host.Outcome State Fault Refusal} {n : Nat} {s t : State}
    (h : runWith f n s = .next t) : stateAfter f n s = t := by
  induction n generalizing s with
  | zero => cases h; rfl
  | succ n ih =>
    rw [runWith] at h
    rw [stateAfter]
    cases hs : f s with
    | next u => rw [hs] at h; exact ih h
    | fault r => rw [hs] at h; cases h
    | refused r => rw [hs] at h; cases h

/-- One tick more than a run that answers a next state. -/
theorem stateAfter_succ {f : State → Host.Outcome State Fault Refusal} {n : Nat} {s t : State}
    (h : runWith f n s = .next t) : stateAfter f (n + 1) s = stateAfter f 1 t := by
  induction n generalizing s with
  | zero => cases h; rfl
  | succ n ih =>
    rw [runWith] at h
    rw [stateAfter]
    cases hs : f s with
    | next u => rw [hs] at h; exact ih h
    | fault r => rw [hs] at h; cases h
    | refused r => rw [hs] at h; cases h

/-- A tick that faults leaves the state it was taken from. -/
theorem stateAfter_fault {f : State → Host.Outcome State Fault Refusal} {s : State} {r : Fault} (h : f s = .fault r) :
    stateAfter f 1 s = s := by
  simp [stateAfter, h]

/-! ### The end of a phase, a micro-step, a tick -/

/-- The end of a phase leaves the interrupt controller alone. -/
theorem finishPhase_controller {s t : State} (h : finishPhase s = .next t) :
    t.pending = s.pending ∧ t.resolved = s.resolved := by
  unfold finishPhase at h
  split at h <;> try (cases h; exact ⟨rfl, rfl⟩)
  unfold finishExecute at h
  split at h <;> try (cases h; exact ⟨rfl, rfl⟩)
  · split at h <;> (cases h; exact ⟨rfl, rfl⟩)
  · split at h <;> (cases h; try exact ⟨rfl, rfl⟩)

/-- What a micro-step can do (R102, R103). -/
theorem microStep_cases (ts : List Transfer) (s : State) :
    (ts.length ≤ s.cursor ∧ microStep ts s = finishPhase s) ∨
    (∃ t, ts[s.cursor]? = some t ∧ s.cursor + 1 < ts.length ∧
      microStep ts s = .next (State.emit { s.transfer t with cursor := s.cursor + 1 } .micro)) ∨
    (∃ t, ts[s.cursor]? = some t ∧ s.cursor + 1 = ts.length ∧ microStep ts s = finishPhase (s.transfer t)) := by
  unfold microStep
  cases h : ts[s.cursor]? with
  | none => exact .inl ⟨by simpa using h, rfl⟩
  | some t =>
    have hl := (List.getElem?_eq_some_iff.mp h).1
    by_cases hc : s.cursor + 1 < ts.length
    · exact .inr (.inl ⟨t, rfl, hc, by simp [hc]⟩)
    · exact .inr (.inr ⟨t, rfl, by omega, by simp [hc]⟩)

theorem fineTick_service (μ : Micro) {s : State} (hd : s.serviceDue = true) (hc : s.cursor = 0) :
    fineTick μ s = .next s.serviceInterrupt := by
  simp [fineTick, hd, hc]

theorem fineTick_microStep (μ : Micro) {s : State} (h : s.serviceDue = false ∨ s.cursor ≠ 0) :
    fineTick μ s = microStep (μ.transfers s) s := by
  have hn : (s.serviceDue && s.cursor == 0) = false := by
    rcases h with h | h <;> simp [h]
  simp [fineTick, hn]

end Sys2Proof.Machine
end

