-- ==== Sys2Proof/Laws/PerInstr.lean ====
section
/-! SUPPORT. Per-instruction laws. Family `OpcodeMap`: an instruction is what the opcode map reads from its own opcode and
operand, and it is well formed. -/

namespace Sys2Proof.Laws.OpcodeMap

/-- The opcode map of R53 gives the instruction back from its opcode and its field. -/
def Statement (i : Instr) : Prop := i.wellFormed = true ∧ decodeFields i.mnemonic.opcode i.operand = .instr i

theorem wellFormed_always (i : Instr) : i.wellFormed = true := by simp [Instr.wellFormed, i.operand.isLt]

theorem sub (x : Addr) : Statement (.sub x) := ⟨wellFormed_always _, rfl⟩
theorem load (x : Addr) : Statement (.load x) := ⟨wellFormed_always _, rfl⟩
theorem mul (x : Addr) : Statement (.mul x) := ⟨wellFormed_always _, rfl⟩
theorem div (x : Addr) : Statement (.div x) := ⟨wellFormed_always _, rfl⟩
theorem ldmq (x : Addr) : Statement (.ldmq x) := ⟨wellFormed_always _, rfl⟩
theorem halt (x : Addr) : Statement (.halt x) := ⟨wellFormed_always _, rfl⟩
theorem add (x : Addr) : Statement (.add x) := ⟨wellFormed_always _, rfl⟩
theorem st (x : Addr) : Statement (.st x) := ⟨wellFormed_always _, rfl⟩

end Sys2Proof.Laws.OpcodeMap
end

