-- ==== Sys2Proof/Tests/Slice0.lean ====
section
/-! SUPPORT. Tests: the smoke tests of WellFormed, decoding of words written out from the spec, one small step per
instruction with the values of 95_test_vectors.md, and a witness for the hypotheses of every statement that has some. -/

namespace Sys2Proof.Tests

open Sys2Proof.Machine

/-! ### WellFormed: an ill-formed term for each check -/

theorem test_text_too_short_is_ill_formed : wellFormedText 13 "101000000000".toList = false := by decide
theorem test_text_with_a_two_is_ill_formed : wellFormedText 3 "102".toList = false := by decide
theorem test_asm_operand_1024_is_ill_formed : (AsmLine.direct .LOAD 1024).wellFormed = false := by decide
theorem test_asm_word_8192_is_ill_formed : (AsmLine.word 8192).wellFormed = false := by decide
theorem test_image_entry_1000_is_refused : imageEntryOk (1000, 1#13) = false := by decide
/-- No ill-formed instruction can be written: the operand's type is its field (log entry 10). -/
theorem test_instr_at_the_last_operand_is_well_formed : (Instr.st 1023#10).wellFormed = true := by decide

/-! ### Decoding: words written out from 30_encoding.md and 95_test_vectors.md section 2.1 -/

theorem test_decode_all_zero_word_is_sub_0 : decode 0b0000000000000#13 = .instr (.sub 0#10) := by decide
theorem test_decode_sub_1023 : decode 0b0001111111111#13 = .instr (.sub 1023#10) := by decide
theorem test_decode_load_5 : decode 0b0010000000101#13 = .instr (.load 5#10) := by decide
theorem test_decode_mul_11 : decode 0b0100000001011#13 = .instr (.mul 11#10) := by decide
theorem test_decode_div_4 : decode 0b0110000000100#13 = .instr (.div 4#10) := by decide
theorem test_decode_ldmq_4 : decode 0b1000000000100#13 = .instr (.ldmq 4#10) := by decide
theorem test_decode_halt_with_field_1023 : decode 0b1011111111111#13 = .instr (.halt 1023#10) := by decide
theorem test_decode_add_1003 : decode 0b1101111101011#13 = .instr (.add 1003#10) := by decide
theorem test_decode_st_1023 : decode 0b1111111111111#13 = .instr (.st 1023#10) := by decide
theorem test_default_isr_word_is_add_1003 :
    Config.defaultIsrWord.toNat = 7147 ∧ decode Config.defaultIsrWord = .instr (.add 1003#10) := by decide
theorem test_decode_text_of_wrong_width : decodeText "10".toList = .rejected .widthViolation := by decide
theorem test_decode_table_word : decodeTableWord 16 1029 = some (.load 5#10) ∧ decodeTableWord 16 8192 = none := by decide
theorem test_assemble_ldmq_999 : (AsmLine.direct .LDMQ 999).assemble = some 0b1001111100111#13 := by decide

/-! ### One step per instruction, values from 95_test_vectors.md sections 2.4 to 2.7 -/

/-- A state at the execute step of the word `w`, fetched from address 3. -/
def ready (w : Word) (ac mq : Word) (cells : Memory) : State :=
  { State.resetWith cells with
    pc := 3#10, mbr := w, ir := opcodeField w, mar := addrField w, ac := ac, mq := mq, phase := .execute }

/-- What a test looks at after one step. -/
structure Seen where
  ac : Nat
  mq : Nat
  mbr : Nat
  pc : Nat
  phase : Phase
  mem : Memory
  deriving DecidableEq, Repr

/-- What one step leaves, where it answers a next state. -/
def after (s : State) : Option Seen :=
  match step s with
  | .next t => some ⟨t.ac.toNat, t.mq.toNat, t.mbr.toNat, t.pc.toNat, t.phase, t.mem⟩
  | .fault _ => none
  | .refused _ => none

/-- The fault of one step, if any. -/
def faultOf (s : State) : Option Fault :=
  match step s with
  | .next _ => none
  | .fault r => some r
  | .refused _ => none

/-- V-LOAD-1 -/
theorem test_load : after (ready 1029#13 77#13 0#13 [(5, 10#13)]) = some ⟨10, 0, 10, 4, .fetch, [(5, 10#13)]⟩ := by decide
/-- V-LOAD-3: an address that names no cell reads 0 -/
theorem test_load_out_of_range : after (ready 2044#13 77#13 0#13 []) = some ⟨0, 0, 0, 4, .fetch, []⟩ := by decide
/-- V-LDMQ-1: `MBR` keeps the instruction word -/
theorem test_ldmq : after (ready 0b1000000001001#13 3#13 5#13 [(9, 100#13)]) =
    some ⟨3, 100, 4105, 4, .fetch, [(9, 100#13)]⟩ := by decide
/-- V-ST-1 -/
theorem test_st : after (ready 0b1110000000111#13 30#13 0#13 []) = some ⟨30, 0, 7175, 4, .fetch, [(7, 30#13)]⟩ := by decide
/-- V-ST-5, V-ST-7: 1004 faults, 1003 does not -/
theorem test_st_range : faultOf (ready 8172#13 1#13 0#13 []) = some (.storeRange 1004#10) ∧
    after (ready 8171#13 4#13 0#13 []) = some ⟨4, 0, 8171, 4, .fetch, [(1003, 4#13)]⟩ := by decide
/-- section 2.5, `ADD` 8191 + 1 wraps -/
theorem test_add_wraps : after (ready 6150#13 8191#13 5#13 [(6, 1#13)]) =
    some ⟨0, 5, 6150, 4, .fetch, [(6, 1#13)]⟩ := by decide
/-- E3, the source's own: 0 - 1 = 8191 -/
theorem test_sub_wraps : after (ready 3#13 0#13 0#13 [(3, 1#13)]) =
    some ⟨8191, 0, 3, 4, .fetch, [(3, 1#13)]⟩ := by decide
/-- section 2.5, `SUB` 30 - 20: the minuend is `AC` -/
theorem test_sub_order : after (ready 3#13 30#13 0#13 [(3, 20#13)]) =
    some ⟨10, 0, 3, 4, .fetch, [(3, 20#13)]⟩ := by decide
/-- section 2.5, `MUL` 5000 * 300 -/
theorem test_mul : after (ready 2059#13 5000#13 0#13 [(11, 300#13)]) =
    some ⟨864, 183, 2059, 4, .fetch, [(11, 300#13)]⟩ := by decide
/-- section 2.5, the largest product -/
theorem test_mul_largest : after (ready 2059#13 8191#13 0#13 [(11, 8191#13)]) =
    some ⟨1, 8190, 2059, 4, .fetch, [(11, 8191#13)]⟩ := by decide
/-- section 2.5, `DIV` 864 by 7: the remainder is of the old `AC` -/
theorem test_div : after (ready 3085#13 864#13 183#13 [(13, 7#13)]) =
    some ⟨123, 3, 3085, 4, .fetch, [(13, 7#13)]⟩ := by decide
/-- section 2.5, `DIV` by an empty cell -/
theorem test_div_by_zero : after (ready 3076#13 9#13 4#13 []) = some ⟨9, 4, 3076, 4, .fetch, []⟩ := by decide
/-- V-HALT-2 -/
theorem test_halt : after (ready 6143#13 30#13 0#13 []) = some ⟨30, 0, 6143, 3, .halted, []⟩ := by decide

/-- A state at `fetch` with interrupts pending. -/
def due (pc : Addr) (ac : Word) (cells : Memory) (ids : List Config.IntId) : State :=
  { State.resetWith cells with pc := pc, ac := ac, phase := .fetch, pending := ids }

/-- V-INT-1 -/
theorem test_service_with_empty_cells : after (due 1#10 7#13 [] [0, 1]) =
    some ⟨7, 0, 0, 1, .fetch, [(1001, 1#13), (1003, 1#13)]⟩ := by decide
/-- V-INT-3: cell 1002 present and zero is the word with field 0 -/
theorem test_service_word_zero_is_not_empty : after (due 0#10 3#13 [(0, 5120#13), (1002, 0#13)] [0]) =
    some ⟨5123, 0, 0, 0, .fetch, [(0, 5120#13), (1001, 0#13), (1002, 0#13), (1003, 1#13)]⟩ := by decide
/-- V-INT-4: the operand is the `PC` just saved -/
theorem test_service_reads_the_saved_pc : after (due 17#10 3#13 [(1002, 7145#13)] [0]) =
    some ⟨20, 0, 0, 17, .fetch, [(1001, 17#13), (1002, 7145#13), (1003, 1#13)]⟩ := by decide
/-- V-INT-5: the counter wraps -/
theorem test_service_counter_wraps : after (due 0#10 10#13 [(1003, 8191#13)] [0]) =
    some ⟨9, 0, 0, 0, .fetch, [(1001, 0#13), (1003, 0#13)]⟩ := by decide
/-- section 2.2 -/
theorem test_next_pc : nextPC 999#10 = 0#10 ∧ nextPC 1000#10 = 1#10 ∧ nextPC 1023#10 = 24#10 := by decide
/-- R57: a text with a header and an empty line, and one whose second line is out of range -/
theorem test_csv : parseCsv "Address,Value\n\n5,1010".toList = .ok [(5, 10#13)] ∧
    parseCsv "0,1\n1000,1".toList = .error ⟨2, .addressOutOfRange⟩ := ⟨by rfl, by rfl⟩

/-- R57, the borders of what a line may say; a sign is refused (log entry 19) -/
theorem test_csv_line : parseLine "999,1111111111111".toList = .ok (999, 8191#13) ∧
    parseLine "1000,1".toList = .error .addressOutOfRange ∧ parseLine "5,10000000000000".toList = .error .valueTooLong ∧
    parseLine "5,12".toList = .error .badValue ∧ parseLine "+5,1".toList = .error .badAddress :=
  ⟨by rfl, by rfl, by rfl, by rfl, by rfl⟩

/-- R32, R142: reserved contents fill an empty 1002 and leave 1000, 1001 (present) and the program space alone -/
theorem test_reserved_contents :
    ((State.resetWith [(1001, 1#13)]).loadReserved [(999, 9#13), (1000, 9#13), (1001, 9#13), (1002, 7147#13)]).mem =
      [(1001, 1#13), (1002, 7147#13)] := by decide
/-- R57: of several broken conditions the address's form comes before the value's (log entry 19) -/
theorem test_csv_line_reason_order : parseLine "x,2".toList = .error .badAddress ∧
    parseLine "1000,2".toList = .error .addressOutOfRange := ⟨by rfl, by rfl⟩

/-! ### Witnesses: for every statement with hypotheses, a concrete state that meets them -/

theorem witness_DecodeOfEncodeIsTheInstruction : (Instr.mul 1023#10).wellFormed = true := by decide
theorem witness_DecodeErrorIsExactlyTheWrongWidth : wellFormedText 13 "1111111111111".toList = true ∧
    wellFormedText 13 "111111111111".toList = false := by decide
theorem witness_CodecRoundTrip : wellFormedText 10 "1111101011".toList = true ∧ 1003 < 2 ^ 10 ∧ 5 < 2 ^ 3 := by decide
theorem witness_MemoryWriteChangesOneCell : (1003#10).toNat < 1004 := by decide
theorem witness_MemoryReadDelivers : (State.resetWith [(1003, 0#13)]).memCell 1003 = some 0#13 ∧
    (State.resetWith []).memCell 1003 = none ∧ 1004 ≤ (1004#10).toNat := by decide
theorem witness_CanonicalMemoriesAreDeterminedByTheirCells :
    (State.resetWith [(0, 1#13), (1003, 2#13)]).mem.wf ∧
    sameCells (State.resetWith [(0, 1#13), (1003, 2#13)]) (State.resetWith [(0, 1#13), (1003, 2#13)]) :=
  ⟨by decide, fun _ => rfl⟩
theorem witness_IdleStepOnlyChangesThePhase : State.reset.phase = .idle ∧ step State.reset = .next (idleStep State.reset) :=
  ⟨rfl, rfl⟩
theorem witness_FetchStepLoadsMarAndMbr : (due 1023#10 0#13 [] []).phase = .fetch ∧ (due 1023#10 0#13 [] []).pending = [] :=
  ⟨rfl, rfl⟩
theorem witness_DecodeStepSplitsMbr : (fetchStep (due 0#10 0#13 [(0, 8191#13)] [])).phase = .decode := rfl
theorem witness_TheCursorReturnsToZeroWithThePhase :
    step { State.reset with cursor := 3 } = .next (idleStep { State.reset with cursor := 3 }) ∧
    (idleStep { State.reset with cursor := 3 }).phase ≠ .idle ∧ (due 0#10 0#13 [] [7]).serviceInterrupt.phase = .fetch :=
  ⟨rfl, by decide, rfl⟩
theorem witness_StepRunsTheDecodedInstruction_execute :
    (ready 1029#13 0#13 0#13 []).phase = .execute ∧
    decodeFields (ready 1029#13 0#13 0#13 []).ir (ready 1029#13 0#13 0#13 []).mar = .instr (.load 5#10) := by decide
theorem witness_StepRunsTheDecodedInstruction_fetch :
    let s := due 999#10 0#13 [(999, 1029#13)] []
    s.phase = .fetch ∧ s.pending = [] ∧ (Instr.load 5#10).wellFormed = true ∧
    decode (s.memRead s.pc) = .instr (.load 5#10) := by decide
theorem witness_PlacedWordIsTheFetchedAndDecodedWord :
    (due 1003#10 0#13 [] []).phase = .fetch ∧ (due 1003#10 0#13 [] []).pending = [] ∧
    (due 1003#10 0#13 [] []).pc.toNat < 1004 := by decide
theorem witness_PhaseTransitions : (due 0#10 0#13 [] [7]).phase ≠ .halted ∧
    step (due 0#10 0#13 [] [7]) = .next (due 0#10 0#13 [] [7]).serviceInterrupt := ⟨by decide, rfl⟩
theorem witness_PcMovesOnlyAtTheEndOfExecute_moves :
    let s := ready 6150#13 0#13 0#13 []
    s.phase = .execute ∧ s.ir ≠ 0b101#3 ∧ step s = .next ((effectAdd 6#10 s).complete .ADD) := ⟨by decide, by decide, rfl⟩
theorem witness_PcMovesOnlyAtTheEndOfExecute_stays :
    let s := ready 5120#13 0#13 0#13 []
    ¬(s.phase = .execute ∧ s.ir ≠ 0b101#3) ∧ step s = .next ((s.emit .halt).enterPhase .halted) := ⟨by decide, rfl⟩
theorem witness_EveryTickAppendsItsEvent :
    step (ready 3076#13 9#13 4#13 []) = .next (ready 3076#13 9#13 4#13 []).raiseDivideByZero ∧
    (ready 3076#13 9#13 4#13 []).phase ≠ .halted := ⟨rfl, by decide⟩
theorem witness_HaltedForEver : ((ready 5120#13 0#13 0#13 []).enterPhase .halted).phase = .halted ∧
    (⟨(ready 5120#13 0#13 0#13 []).enterPhase .halted, none⟩ : Session).stopped = none := ⟨rfl, rfl⟩
theorem witness_StoreResultAndFrame : (effectiveAddr 1003#10).toNat < 1004 := by decide
theorem witness_StoreOutOfRangeFaults : 1004 ≤ (1004#10).toNat := by decide
theorem witness_DivResultAndFrame : ((ready 0#13 0#13 0#13 [(13, 1#13)]).memRead 13#10).toNat ≠ 0 := by decide
theorem witness_DivByZeroCompletesWithoutAResult : ((ready 0#13 0#13 0#13 [(13, 0#13)]).memRead 13#10).toNat = 0 := by decide
theorem witness_ArithmeticIsExactThenNarrowed : 8191 = ((ready 0#13 0#13 0#13 [(13, 8191#13)]).memRead 13#10).toNat ∧
    (8191 : Nat) ≠ 0 ∧ 0 = ((ready 0#13 0#13 0#13 []).memRead 13#10).toNat := by decide
theorem witness_OnlyStoresAndServicesWriteMemory_store :
    let s := ready 8171#13 4#13 0#13 []
    let t := (s.setCell 1003 4#13).complete .ST
    step s = .next t ∧ t.memCell 1003 ≠ s.memCell 1003 := ⟨rfl, by decide⟩
theorem witness_OnlyStoresAndServicesWriteMemory_service :
    let s := due 5#10 0#13 [] [7]
    step s = .next s.serviceInterrupt ∧ s.serviceInterrupt.memCell 1001 ≠ s.memCell 1001 ∧
    s.serviceInterrupt.memCell 1003 ≠ s.memCell 1003 := ⟨rfl, by decide, by decide⟩
theorem witness_NoTickEmptiesACell :
    let s := ready 8171#13 4#13 0#13 [(1003, 0#13)]
    step s = .next ((s.setCell 1003 4#13).complete .ST) ∧ s.memCell 1003 ≠ none := ⟨rfl, by decide⟩
theorem witness_StoredWordIsFetchedNext :
    let s := { ready 7168#13 6149#13 0#13 [] with pc := 999#10 }
    s.phase = .execute ∧ s.ir = 0b111#3 ∧ s.mar = nextPC s.pc ∧ s.pending = [] := by decide
theorem witness_EmptyCellExecutesAsSubZero :
    let s := due 999#10 5#13 [(0, 1#13)] []
    s.phase = .fetch ∧ s.pending = [] ∧ s.memCell s.pc.toNat = none := by decide
theorem witness_ServiceExactlyAtFetchWithAPendingInterrupt_service :
    (due 0#10 0#13 [] [7, 8]).phase = .fetch ∧ (due 0#10 0#13 [] [7, 8]).pending = [7, 8] := ⟨rfl, rfl⟩
theorem witness_ServiceExactlyAtFetchWithAPendingInterrupt_none :
    let s := (State.reset.trigger 7)
    ¬(s.phase = .fetch ∧ s.pending ≠ []) ∧ step s = .next (idleStep s) := ⟨by decide, rfl⟩
theorem witness_ServiceEffectsAndFrame :
    let s := due 17#10 3#13 [(1002, 7145#13)] [7]
    s.phase = .fetch ∧ s.pending = 7 :: [] ∧ 7145#13 = (s.memCell 1002).getD 0b1101111101011#13 ∧
    0 = ((s.memCell 1003).getD 0#13).toNat ∧ 17 = (if (7145#13).toNat % 1024 = 1001 then s.pc.toNat else 0) := by decide
theorem witness_PendingInterruptsAreServicedInOrder :
    (due 0#10 0#13 [] [7, 8]).phase = .fetch ∧ 2 ≤ (due 0#10 0#13 [] [7, 8]).pending.length := by decide
theorem witness_DrainingTheQueueInClosedForm :
    let s := due 5#10 8191#13 [(1003, 8191#13)] [7, 8, 9]
    s.phase = .fetch ∧ s.pending.length = 3 ∧ ((s.memCell 1002).getD 0b1101111101011#13).toNat % 1024 = 1003 ∧
    8191 = ((s.memCell 1003).getD 0#13).toNat := by decide
theorem witness_ResolvedPlusPendingIsConstant :
    ticks 1 (due 0#10 0#13 [] [7]) = .next (due 0#10 0#13 [] [7]).serviceInterrupt := rfl
theorem witness_ResetMeetsTheInvariant : Memory.wf [(0, 1#13), (1003, 2#13)] := by decide
theorem witness_EveryStepKeepsTheInvariant :
    let s := { ready 1029#13 0#13 0#13 [(3, 1029#13)] with pending := [7] }
    s.Inv ∧ step s = .next ((effectLoad 5#10 s).complete .LOAD) := ⟨by decide, rfl⟩
theorem witness_EveryInterleavingKeepsTheInvariant :
    (⟨State.reset, none⟩ : Session).core.Inv ∧
    ∀ e ∈ [Event.tick, .trigger 7, .reset], e = .tick ∨ e = .reset ∨ ∃ id, e = .trigger id :=
  ⟨by decide, by simp⟩
theorem witness_FaultLastsUntilReset :
    (⟨ready 8172#13 1#13 0#13 [], some (.storeRange 1004#10)⟩ : Session).stopped = some (.storeRange 1004#10) ∧
    (∀ e ∈ [Event.tick, .trigger 7, .load []], e ≠ .reset) ∧
    (⟨ready 8172#13 1#13 0#13 [], none⟩ : Session).core.storeOutOfRange := by decide
theorem witness_LoadReplacesTheProgramSpace :
    (∀ p ∈ ([(0, 1#13), (999, 2#13)] : Image), p.1 ≤ 999) ∧ (∃ p ∈ ([(0, 1#13), (1000, 2#13)] : Image), 999 < p.1) := by
  decide
theorem witness_LoadingKeepsReservedCellsThatHoldValues :
    let s := State.resetWith [(0, 1#13), (1001, 1#13)]
    s.memCell 1001 ≠ none ∧ s.memCell 1003 = none ∧
    ([(1001, 2#13), (1003, 0#13)] : Image).find? (fun p => p.1 == 1003) = some (1003, 0#13) := by decide
theorem witness_CsvLoadIsTheLoadOfItsImage :
    parseCsv "999,1".toList = .ok [(999, 1#13)] ∧ parseCsv "1000,1".toList = .error ⟨1, .addressOutOfRange⟩ ∧
    dataLines "address,value\n999,1\n1000,1".toList = [(2, "999,1".toList), (3, "1000,1".toList)] :=
  ⟨by rfl, by rfl, by rfl⟩
theorem witness_CsvTextIsItsLinesAndHeadersNameBothColumns :
    "9,1".toList ∈ splitText '\n' "9,1\n".toList ∧ isHeader "ADDRESS;Value".toList = true ∧
    isHeader "address".toList = false := ⟨by decide, by rfl, by rfl⟩
theorem witness_DriverStopsWithinTheCap :
    (drive 1 State.reset).1 = .limitReached ∧ (drive 1 (ready 5120#13 0#13 0#13 [])).1 = .halted ∧
    (drive 1 (ready 8172#13 0#13 0#13 [])).1 = .faulted (.storeRange 1004#10) := by decide
theorem witness_MicroStepsAddUpToTheCoarseTick :
    (ready 1029#13 0#13 0#13 []).cursor = 0 ∧ (specMicro.transfers (ready 1029#13 0#13 0#13 [])).length = 3 := by decide
theorem witness_MicroStepsAreNotInterrupted :
    let s := { due 0#10 0#13 [] [7] with cursor := 1 }
    ¬(s.phase = .fetch ∧ s.pending ≠ [] ∧ s.cursor = 0) ∧ (due 0#10 0#13 [] [7]).cursor = 0 ∧
    fineTick specMicro s = microStep specMicro.fetch s := ⟨by decide, rfl, rfl⟩
/-- A `MICRO` of another shape than the spec's examples: the decode step in two transfers. -/
def twoStepDecode : Micro :=
  { specMicro with
    decode := [fun s => s.setIr (opcodeField s.mbr), fun s => s.setMar (addrField s.mbr)]
    execute := fun _ => [wholeEffect] }
theorem witness_AnyMicroWithTheCoarseNetEffectAgreesWithCoarse :
    (∀ s : State, (twoStepDecode.transfers s).foldl State.transfer s = s.phaseEffect) ∧
    (∀ op : Opcode, ∀ t ∈ twoStepDecode.execute op, ∀ s : State, (t s).ir = s.ir) ∧
    (∀ s : State, s.storeOutOfRange → ∀ t ∈ twoStepDecode.transfers s, s.transfer t = s) ∧
    (ready 8172#13 1#13 0#13 []).storeOutOfRange := by
  refine ⟨?_, ?_, ?_, by decide⟩
  · intro s
    unfold Micro.transfers State.phaseEffect
    cases s.phase with
    | execute => exact s.transfer_wholeEffect
    | _ => rfl
  · intro op t ht
    obtain rfl := List.mem_singleton.mp ht
    exact wholeEffect_ir
  · intro s h t ht
    rw [Micro.transfers, h.1] at ht
    obtain rfl := List.mem_singleton.mp ht
    exact transfer_wholeEffect_storeOutOfRange h
/-- R101, R114: a `MICRO` whose first transfer of `ST` clears `AC` before the fault does not agree with the coarse engine. -/
theorem test_micro_that_writes_before_the_fault :
    let s := ready 8172#13 1#13 0#13 []
    let μ : Micro := { specMicro with execute := fun _ => [fun u => u.setAc 0#13, wholeEffect] }
    (stateAfter (fineTick μ) (μ.ticksOf s) s).dataView ≠ (stateAfter coarseTick 1 s).dataView := by decide
/-- Log entry 8: a cursor past the transfers of the phase finishes it with no transfer. -/
theorem test_cursor_past_the_transfers :
    (match fineTick specMicro { ready 6150#13 1#13 0#13 [(6, 5#13)] with cursor := 2 } with
      | .next t => some (t.ac.toNat, t.pc.toNat, t.phase, t.cursor)
      | .fault _ => none
      | .refused _ => none) = some (1, 4, .fetch, 0) := by decide
/-- R101, the same core built fine: three ticks of `LOAD`'s decomposition (R103), then the next phase. -/
theorem test_fine_load :
    (match runWith (fineTick specMicro) 3 (ready 1029#13 77#13 0#13 [(5, 10#13)]) with
      | .next t => some (t.ac.toNat, t.pc.toNat, t.phase, t.cursor)
      | .fault _ => none
      | .refused _ => none) = some (10, 4, .fetch, 0) := by decide
/-- `withFetchWord` after reset runs the word on the very next step. -/
theorem test_placed_word_runs_first : after (State.reset.withFetchWord 16 1029) =
    some ⟨0, 0, 0, 1, .fetch, [(0, 1029#13)]⟩ := by decide

end Sys2Proof.Tests
end

section
/-! PROOFS. The word/register codec (00_scope.md R7): the value of a text as base-2 digits, the text of a value, and the
uniqueness of the well-formed text of a value, from which the text-to-text round trip and the left padding follow. -/

namespace Sys2Proof

/-! ### Well-formed texts -/

/-- One more character: it is a digit, and the rest is well formed at the width one less. -/
@[simp] theorem wellFormedText_succ_cons (width : Nat) (c : Char) (cs : List Char) :
    wellFormedText (width + 1) (c :: cs) = true ↔ (c = '0' ∨ c = '1') ∧ wellFormedText width cs = true := by
  simp [wellFormedText, isBit, and_left_comm]

theorem length_eq_of_wellFormedText {width : Nat} {cs : List Char} (h : wellFormedText width cs = true) :
    cs.length = width := by
  simp only [wellFormedText, Bool.and_eq_true, beq_iff_eq] at h
  exact h.1

theorem wellFormedText_replicate_zero_append {width : Nat} {cs : List Char} (h : wellFormedText width cs = true)
    (k : Nat) : wellFormedText (k + width) (List.replicate k '0' ++ cs) = true := by
  induction k with
  | zero => simpa using h
  | succ k ih => simpa [Nat.add_right_comm, List.replicate_succ] using ih

theorem wellFormedText_decimalToBinary (width v : Nat) : wellFormedText width (decimalToBinary width v) = true := by
  induction width with
  | zero => rfl
  | succ k ih =>
    rw [decimalToBinary, wellFormedText_succ_cons]
    exact ⟨(ite_eq_or_eq _ '1' '0').symm, ih⟩

/-! ### The value of a text -/

@[simp] theorem bitValue_zero : bitValue '0' = 0 := rfl
@[simp] theorem bitValue_one : bitValue '1' = 1 := rfl

theorem bitValue_lt_two (c : Char) : bitValue c < 2 := by
  unfold bitValue
  split <;> decide

/-- Most significant first: the text read from the right is the list of base-2 digits, least significant first. -/
theorem binaryToDecimal_eq_ofDigits (cs : List Char) :
    binaryToDecimal cs = Nat.ofDigits 2 (cs.reverse.map bitValue) := by
  simp [binaryToDecimal, Nat.ofDigits_eq_foldr, List.foldl_map, Nat.add_comm]

/-- The leftmost character has the weight of all the characters after it. -/
theorem binaryToDecimal_cons (c : Char) (cs : List Char) :
    binaryToDecimal (c :: cs) = 2 ^ cs.length * bitValue c + binaryToDecimal cs := by
  simp [binaryToDecimal_eq_ofDigits, Nat.ofDigits_append, Nat.add_comm]

@[simp] theorem binaryToDecimal_zero_cons (cs : List Char) : binaryToDecimal ('0' :: cs) = binaryToDecimal cs := by
  simp [binaryToDecimal_cons]

@[simp] theorem binaryToDecimal_one_cons (cs : List Char) :
    binaryToDecimal ('1' :: cs) = 2 ^ cs.length + binaryToDecimal cs := by
  simp [binaryToDecimal_cons]

@[simp] theorem binaryToDecimal_replicate_zero_append (k : Nat) (cs : List Char) :
    binaryToDecimal (List.replicate k '0' ++ cs) = binaryToDecimal cs := by
  induction k with
  | zero => rfl
  | succ k ih => simpa [List.replicate_succ] using ih

theorem binaryToDecimal_lt_two_pow_length (cs : List Char) : binaryToDecimal cs < 2 ^ cs.length := by
  have h := Nat.ofDigits_lt_base_pow_length (b := 2) (l := cs.reverse.map bitValue) Nat.one_lt_two
    (List.forall_mem_map.mpr fun c _ => bitValue_lt_two c)
  simpa [binaryToDecimal_eq_ofDigits] using h

theorem binaryToDecimal_lt_of_wellFormedText {width : Nat} {cs : List Char} (h : wellFormedText width cs = true) :
    binaryToDecimal cs < 2 ^ width :=
  length_eq_of_wellFormedText h ▸ binaryToDecimal_lt_two_pow_length cs

/-! ### The round trips -/

/-- The text of any value keeps its low `width` bits. -/
theorem binaryToDecimal_decimalToBinary (width v : Nat) :
    binaryToDecimal (decimalToBinary width v) = v % 2 ^ width := by
  induction width with
  | zero => simp [decimalToBinary, binaryToDecimal, Nat.mod_one]
  | succ k ih =>
    have hlen := length_eq_of_wellFormedText (wellFormedText_decimalToBinary k v)
    have hdigit : bitValue (if v / 2 ^ k % 2 = 1 then '1' else '0') = v / 2 ^ k % 2 := by
      split
      next h => rw [h, bitValue_one]
      next h => rw [Nat.mod_two_ne_one.mp h, bitValue_zero]
    rw [decimalToBinary, binaryToDecimal_cons, hlen, hdigit, ih, Nat.mod_pow_succ, Nat.add_comm]

/-- A value has one well-formed text of a width: the leading digit is decided by whether the value reaches its weight. -/
theorem eq_of_binaryToDecimal_eq {width : Nat} {cs ds : List Char} (hc : wellFormedText width cs = true)
    (hd : wellFormedText width ds = true) (h : binaryToDecimal cs = binaryToDecimal ds) : cs = ds := by
  induction width generalizing cs ds with
  | zero =>
    rw [List.eq_nil_of_length_eq_zero (length_eq_of_wellFormedText hc),
      List.eq_nil_of_length_eq_zero (length_eq_of_wellFormedText hd)]
  | succ k ih =>
    obtain ⟨c, cs, rfl⟩ := List.exists_cons_of_length_eq_add_one (length_eq_of_wellFormedText hc)
    obtain ⟨d, ds, rfl⟩ := List.exists_cons_of_length_eq_add_one (length_eq_of_wellFormedText hd)
    obtain ⟨hcDigit, hcs⟩ := (wellFormedText_succ_cons k c cs).mp hc
    obtain ⟨hdDigit, hds⟩ := (wellFormedText_succ_cons k d ds).mp hd
    have hclt := binaryToDecimal_lt_of_wellFormedText hcs
    have hdlt := binaryToDecimal_lt_of_wellFormedText hds
    obtain rfl | rfl := hcDigit <;> obtain rfl | rfl := hdDigit <;>
      simp only [binaryToDecimal_zero_cons, binaryToDecimal_one_cons, length_eq_of_wellFormedText hcs,
        length_eq_of_wellFormedText hds] at h
    · rw [ih hcs hds h]
    · omega
    · omega
    · rw [ih hcs hds (Nat.add_left_cancel h)]

/-- The text of a value is the well-formed text that has the value. -/
theorem decimalToBinary_binaryToDecimal {width : Nat} {cs : List Char} (h : wellFormedText width cs = true) :
    decimalToBinary width (binaryToDecimal cs) = cs := by
  refine eq_of_binaryToDecimal_eq (wellFormedText_decimalToBinary _ _) h ?_
  rw [binaryToDecimal_decimalToBinary, Nat.mod_eq_of_lt (binaryToDecimal_lt_of_wellFormedText h)]

theorem decimalToBinary_add_width {width v : Nat} (h : v < 2 ^ width) (k : Nat) :
    decimalToBinary (k + width) v = List.replicate k '0' ++ decimalToBinary width v := by
  have hval : binaryToDecimal (List.replicate k '0' ++ decimalToBinary width v) = v := by
    rw [binaryToDecimal_replicate_zero_append, binaryToDecimal_decimalToBinary, Nat.mod_eq_of_lt h]
  have htext := decimalToBinary_binaryToDecimal
    (wellFormedText_replicate_zero_append (wellFormedText_decimalToBinary width v) k)
  rwa [hval] at htext

/-- Settles O7: a well-formed text is determined by its value, and the text of a value has that value. -/
theorem codecRoundTrip : Obligations.CodecRoundTrip :=
  ⟨fun _ _ h => ⟨decimalToBinary_binaryToDecimal h, binaryToDecimal_lt_of_wellFormedText h⟩,
    fun width v h => ⟨wellFormedText_decimalToBinary width v,
      (binaryToDecimal_decimalToBinary width v).trans (Nat.mod_eq_of_lt h)⟩,
    fun cs => ⟨binaryToDecimal_zero_cons cs, binaryToDecimal_one_cons cs⟩,
    fun _ k _ h => decimalToBinary_add_width h k⟩

end Sys2Proof
end

section
/-! PROOFS. A memory write (20_memory.md R35): what it answers at an address that names a cell, and what a read of the
written cell delivers. -/

namespace Sys2Proof.Machine

/-- R35: a write to an address that names a cell is answered, never refused or faulted. -/
theorem State.memWrite_of_lt (s : State) {a : Addr} (h : a.toNat < Config.memSize) (v : Word) :
    s.memWrite a v = .next (s.setCell a.toNat v) :=
  if_pos h

@[simp] theorem State.memRead_setCell_same (s : State) {a : Addr} (h : a.toNat < Config.memSize) (v : Word) :
    (s.setCell a.toNat v).memRead a = v := by
  rw [State.memRead, State.memCell_setCell_same s h, Option.getD_some]

/-- Settles O8: the next state is the one with the cell set. -/
theorem memoryWriteChangesOneCell : Obligations.MemoryWriteChangesOneCell := by
  intro s a v h
  exact ⟨s.setCell a.toNat v, s.memWrite_of_lt h v, s.memCell_setCell_same h v, s.memRead_setCell_same h v,
    fun _ hb => s.memCell_setCell_other hb v, rfl⟩

end Sys2Proof.Machine
end

section
/-! PROOFS. The decoder splits the word (30_encoding.md R51): the two fields as integers, and the instruction they give. -/

namespace Sys2Proof

/-- The integer identity of R51, `w = opcode * 1024 + X`: quotient and remainder by 1024 give the word back. -/
theorem toNat_eq_opcodeField_mul_add_addrField (w : Word) :
    w.toNat = (opcodeField w).toNat * 1024 + (addrField w).toNat := by
  rw [opcodeField_toNat, addrField_toNat, Nat.div_add_mod']

/-- Settles O2: the fields are the word's quotient and remainder by 1024, and the opcode map answers for every opcode. -/
theorem decodeSplitsTheWord : Obligations.DecodeSplitsTheWord :=
  fun w => ⟨opcodeField_toNat w, addrField_toNat w, toNat_eq_opcodeField_mul_add_addrField w, decode_total w⟩

end Sys2Proof
end

section
/-! PROOFS. The engine cycle (40_engine_cycle.md R63, R65, R67, R70): the phase transitions, the idle and the decode step,
and the next program counter. -/

namespace Sys2Proof.Machine

/-! ### The phase after a tick -/

/-- R120 step 7: a service leaves the phase alone. -/
theorem State.serviceInterrupt_phase {s : State} (hq : s.pending ≠ []) : s.serviceInterrupt.phase = s.phase := by
  obtain ⟨id, rest, h⟩ := List.exists_cons_of_ne_nil hq
  obtain ⟨-, -, -, -, -, hphase, -⟩ := State.serviceInterrupt_registers h
  exact hphase

/-- R66: an execute tick that answers a state halts on the `HALT` opcode and goes back to fetch on every other. -/
theorem step_execute_phase {s t : State} (h : s.phase = .execute) (hs : step s = .next t) :
    (s.ir ≠ 0b101#3 ∧ t.phase = .fetch) ∨ (s.ir = 0b101#3 ∧ t.phase = .halted) := by
  rcases step_execute_cases h with ⟨-, -, e⟩ | ⟨hir, -, e⟩ | ⟨hir, e⟩ | ⟨-, hir, b, a, q, ev, e⟩ <;>
    rw [e] at hs <;> cases hs
  case inr.inl => exact .inl ⟨by simp [hir], rfl⟩
  case inr.inr.inl => exact .inr ⟨hir, rfl⟩
  case inr.inr.inr => exact .inl ⟨hir, rfl⟩

/-- Settles O17: one disjunct for each kind of tick, the execute tick's two by its opcode. -/
theorem phaseTransitions : Obligations.PhaseTransitions := by
  intro s t hne hs
  rcases step_cases s with ⟨hp, hq, e⟩ | ⟨hp, e⟩ | ⟨hp, hq, e⟩ | ⟨hp, e⟩ | ⟨hp, -⟩ | ⟨hp, -⟩
  · cases e.symm.trans hs
    exact .inr (.inr (.inl ⟨hp, hq, (State.serviceInterrupt_phase hq).trans hp⟩))
  · cases e.symm.trans hs
    exact .inl ⟨hp, rfl⟩
  · cases e.symm.trans hs
    exact .inr (.inl ⟨hp, hq, rfl⟩)
  · cases e.symm.trans hs
    exact .inr (.inr (.inr (.inl ⟨hp, rfl⟩)))
  · rcases step_execute_phase hp hs with h | h
    · exact .inr (.inr (.inr (.inr (.inl ⟨hp, h⟩))))
    · exact .inr (.inr (.inr (.inr (.inr ⟨hp, h⟩))))
  · exact absurd hp hne

/-- No tick ends in `idle`: no transition of R70 does, and a stray tick in `halted` stays there (R63, R69). -/
theorem step_phase_ne_idle {s t : State} (hs : step s = .next t) : t.phase ≠ .idle := by
  by_cases hp : s.phase = .halted
  · cases (step_halted hp).symm.trans hs
    simp [hp]
  · rcases phaseTransitions s t hp hs with ⟨-, h⟩ | ⟨-, -, h⟩ | ⟨-, -, h⟩ | ⟨-, h⟩ | ⟨-, -, h⟩ | ⟨-, -, h⟩ <;>
      simp [h]

/-! ### The idle step, the decode step and the next program counter -/

/-- Settles O11: the tick in `idle` is the idle step, and no tick ends in `idle`. -/
theorem idleStepOnlyChangesThePhase : Obligations.IdleStepOnlyChangesThePhase :=
  ⟨fun _ h => ⟨0, step_idle h⟩, fun _ _ => step_phase_ne_idle⟩

/-- Settles O13: the tick in `decode` is the decode step, and the word's fields are its quotient and remainder by 1024. -/
theorem decodeStepSplitsMbr : Obligations.DecodeStepSplitsMbr := fun s h =>
  ⟨opcodeField s.mbr, addrField s.mbr, 0, opcodeField_toNat s.mbr, addrField_toNat s.mbr, step_decode h⟩

/-- Settles O18: a remainder by 1000 is below 1000. -/
theorem nextPcIsPlusOneModulo1000 : Obligations.NextPcIsPlusOneModulo1000 := fun p =>
  ⟨nextPC_toNat p, (nextPC_toNat p).trans_lt (Nat.mod_lt _ (by decide))⟩

end Sys2Proof.Machine
end

section
/-! PROOFS. The data transfer instructions (41_data_transfer.md R80): what the end of an execute step does, and the
result and the frame of `LOAD`. -/

namespace Sys2Proof.Machine

/-- R66 to R68: an effect `u` that leaves `PC` and the trace of `s` alone, completed, has moved on from `s`. -/
theorem State.complete_movedOn {s u : State} (hpc : u.pc = s.pc) (htrace : u.trace = s.trace) (m : Mnemonic) :
    movedOn s (u.complete m) (.exec m) :=
  ⟨by rw [complete_pc, nextPC_toNat, hpc], complete_phase u m, by rw [complete_trace, htrace]⟩

/-- R80: the execute step of `LOAD` is the operand, read at the field itself (R83), staged in `MBR`, copied to `AC`, and
completed. -/
theorem exec_load (x : Addr) (s : State) :
    exec (.load x) s = .next (((s.setMbr (s.memRead x)).setAc (s.memRead x)).complete .LOAD) := rfl

/-- Settles O22: the two registers by what the updates write, the frame by what they leave alone. -/
theorem loadResultAndFrame : Obligations.LoadResultAndFrame := by
  intro s x
  refine ⟨_, exec_load x s, ?ac, ?mbr, ?mq, ?control, ?cells, ?moved⟩
  case ac => simp
  case mbr => simp
  case mq => simp
  case control => simp [sameControl]
  case cells => simp [sameCells]
  case moved => exact State.complete_movedOn rfl rfl .LOAD

end Sys2Proof.Machine
end

section
/-! PROOFS. `DIV` with a zero operand (42_arithmetic.md R90, 60_exceptions.md R111): it raises `DivideByZero`, and the
machine goes on. -/

namespace Sys2Proof.Machine

/-- R90: a zero operand takes the zero check's branch, for the other branch has a non-zero one. -/
theorem exec_div_of_operand_eq_zero {s : State} {x : Addr} (h : s.operand x = 0#13) :
    exec (.div x) s = .next s.raiseDivideByZero := by
  rcases execDiv_cases x s with ⟨-, e⟩ | ⟨hne, -⟩
  · exact e
  · exact absurd h hne

/-- R111: `DivideByZero` ends the instruction as a completion does, with its own event. -/
theorem State.raiseDivideByZero_movedOn (s : State) : movedOn s s.raiseDivideByZero .divByZero :=
  ⟨by rw [raiseDivideByZero_pc, nextPC_toNat], raiseDivideByZero_phase s, raiseDivideByZero_trace s⟩

/-- Settles O30: the next state is the one that raised `DivideByZero`, which writes no data register and no cell. -/
theorem divByZeroCompletesWithoutAResult : Obligations.DivByZeroCompletesWithoutAResult := by
  intro s x h
  have hzero : s.operand x = 0#13 := BitVec.eq_of_toNat_eq h
  refine ⟨s.raiseDivideByZero, exec_div_of_operand_eq_zero hzero, ?ac, ?mq, ?mbr, ?control, ?cells, ?moved⟩
  case ac => exact s.raiseDivideByZero_ac
  case mq => exact s.raiseDivideByZero_mq
  case mbr => exact s.raiseDivideByZero_mbr
  case control => simp [sameControl]
  case cells => exact s.raiseDivideByZero_memCell
  case moved => exact s.raiseDivideByZero_movedOn

end Sys2Proof.Machine
end

section
/-! PROOFS. The control instruction `HALT` (43_control.md R95): it ends the run where it stands. -/

namespace Sys2Proof.Machine

/-- R95: the execute step of `HALT` records its event and enters `halted`, the same for every field; `PC` is not
advanced, as a completion would do. -/
theorem exec_halt (x : Addr) (s : State) : exec (.halt x) s = .next ((s.emit .halt).enterPhase .halted) := rfl

/-- Settles O31: the recorded event and the phase entered are the only changes, and entering a phase resets the cursor
to 0. -/
theorem haltStopsTheCore : Obligations.HaltStopsTheCore := fun s x => ⟨0, exec_halt x s⟩

end Sys2Proof.Machine
end

section
/-! PROOFS. Interrupts (60_exceptions.md R118, R119): when a tick is a service, and the order of the services of a whole
queue. -/

namespace Sys2Proof.Machine

/-! ### When a tick is a service -/

/-- R66: completing an instruction and halting leave the queue and the resolved count alone, and a faulting tick answers
no state. -/
theorem step_execute_pending_resolved {s t : State} (h : s.phase = .execute) (hs : step s = .next t) :
    t.pending = s.pending ∧ t.resolved = s.resolved := by
  rcases step_execute_cases h with ⟨-, -, e⟩ | ⟨-, -, e⟩ | ⟨-, e⟩ | ⟨-, -, b, a, q, ev, e⟩ <;>
    rw [e] at hs <;> cases hs <;> exact ⟨rfl, rfl⟩

/-- R119: a tick that is no service leaves the queue and the resolved count alone. -/
theorem step_pending_resolved {s t : State} (hno : ¬(s.phase = .fetch ∧ s.pending ≠ [])) (hs : step s = .next t) :
    t.pending = s.pending ∧ t.resolved = s.resolved := by
  rcases step_cases s with ⟨hp, hq, -⟩ | ⟨-, e⟩ | ⟨-, -, e⟩ | ⟨-, e⟩ | ⟨hp, -⟩ | ⟨-, e⟩
  · exact absurd ⟨hp, hq⟩ hno
  · cases e.symm.trans hs
    exact ⟨rfl, rfl⟩
  · cases e.symm.trans hs
    exact ⟨rfl, rfl⟩
  · cases e.symm.trans hs
    exact ⟨rfl, rfl⟩
  · exact step_execute_pending_resolved hp hs
  · cases e.symm.trans hs
    exact ⟨rfl, rfl⟩

/-- Settles O43: at `fetch` with an entry pending the tick is the service, and every other tick keeps queue and count. -/
theorem serviceExactlyAtFetchWithAPendingInterrupt : Obligations.ServiceExactlyAtFetchWithAPendingInterrupt := by
  refine fun s => ⟨fun id rest hp hq => ?service, fun _ => step_pending_resolved⟩
  case service =>
    obtain ⟨hpc, -, -, -, -, hphase, -, hpending, hresolved, -⟩ := State.serviceInterrupt_registers hq
    exact ⟨s.serviceInterrupt, step_service hp (by simp [hq]), hpending, hresolved, hphase.trans hp, hpc⟩

/-! ### The services of a whole queue -/

/-- R118: `k` ticks from `s` answer `t`, and they are the services of the first `k` identifiers of the queue, head first:
the trace names these identifiers in order, the rest of the queue is left, and `PC` and the phase are as they were. -/
structure ServicesFirst (k : Nat) (s t : State) : Prop where
  run : ticks k s = .next t
  phase : t.phase = s.phase
  pc : t.pc = s.pc
  pending : t.pending = s.pending.drop k
  resolved : t.resolved = s.resolved + k
  trace : ∃ es : List TraceEvent, t.trace = s.trace ++ es ∧ es.map interruptId = (s.pending.take k).map some

theorem ServicesFirst.zero (s : State) : ServicesFirst 0 s s where
  run := ticks_zero s
  phase := rfl
  pc := rfl
  pending := rfl
  resolved := rfl
  trace := ⟨[], by simp⟩

/-- The service of the head, then those of the next `k` identifiers. -/
theorem ServicesFirst.succ {k : Nat} {s t : State} {id : Config.IntId} {rest : List Config.IntId}
    (hp : s.phase = .fetch) (hq : s.pending = id :: rest) (h : ServicesFirst k s.serviceInterrupt t) :
    ServicesFirst (k + 1) s t := by
  obtain ⟨hpc, -, -, -, -, hphase, -, hpending, hresolved, -, htrace⟩ := State.serviceInterrupt_registers hq
  obtain ⟨es, hes, hids⟩ := h.trace
  have hstep : step s = .next s.serviceInterrupt := step_service hp (by simp [hq])
  exact
    { run := (ticks_succ_of_next hstep k).trans h.run
      phase := h.phase.trans hphase
      pc := h.pc.trans hpc
      pending := by rw [h.pending, hpending, hq, List.drop_succ_cons]
      resolved := by rw [h.resolved, hresolved, Nat.add_right_comm, Nat.add_assoc]
      trace := ⟨.interrupt id s.pc s.nextCounter :: es, by simp [hes, htrace],
        by simp [hids, hpending, hq, interruptId]⟩ }

/-- R118: from `fetch`, any number of the pending identifiers is serviced, head first, one a tick. -/
theorem exists_servicesFirst {k : Nat} {s : State} (hp : s.phase = .fetch) (hk : k ≤ s.pending.length) :
    ∃ t, ServicesFirst k s t := by
  induction k generalizing s with
  | zero => exact ⟨s, .zero s⟩
  | succ k ih =>
    obtain ⟨id, rest, hq⟩ := List.exists_cons_of_length_pos (Nat.zero_lt_of_lt hk)
    obtain ⟨-, -, -, -, -, hphase, -, hpending, -⟩ := State.serviceInterrupt_registers hq
    have hk' : k ≤ s.serviceInterrupt.pending.length := by simpa [hpending, hq] using hk
    obtain ⟨t, ht⟩ := ih (hphase.trans hp) hk'
    exact ⟨t, .succ hp hq ht⟩

/-- Settles O45: `k` ticks are the services of the first `k` identifiers, and after those of the whole
queue the fetch step is due. -/
theorem pendingInterruptsAreServicedInOrder : Obligations.PendingInterruptsAreServicedInOrder := by
  refine fun s hp => ⟨fun k hk => ?services, ?drained⟩
  case services =>
    obtain ⟨t, ht⟩ := exists_servicesFirst hp hk
    obtain ⟨es, hes, hids⟩ := ht.trace
    have hphase : t.phase = .fetch := ht.phase.trans hp
    exact ⟨t, es, ht.run, hphase, ht.pc, ht.pending, ht.resolved, hes, hids,
      fun id => ⟨by rw [State.trigger_pending, ht.pending], hphase⟩⟩
  case drained =>
    obtain ⟨t, ht⟩ := exists_servicesFirst hp le_rfl
    have hempty : t.pending = [] := ht.pending.trans List.drop_length
    exact ⟨t, ht.run, hempty, step_fetch (ht.phase.trans hp) hempty⟩

end Sys2Proof.Machine
end

section
/-! PROOFS. The encoding (30_encoding.md R50 to R54, R59): encode and decode undo each other, on instructions and on
words, and what the text decoder answers. -/

namespace Sys2Proof

/-! ### Decode and encode -/

/-- R53 for all eight instructions: the family of laws, put together. -/
theorem opcodeMap_statement : ∀ i : Instr, Laws.OpcodeMap.Statement i
  | .sub x => Laws.OpcodeMap.sub x
  | .load x => Laws.OpcodeMap.load x
  | .mul x => Laws.OpcodeMap.mul x
  | .div x => Laws.OpcodeMap.div x
  | .ldmq x => Laws.OpcodeMap.ldmq x
  | .halt x => Laws.OpcodeMap.halt x
  | .add x => Laws.OpcodeMap.add x
  | .st x => Laws.OpcodeMap.st x

@[simp] theorem decode_encode (i : Instr) : decode (encode i) = .instr i := by
  rw [decode, opcodeField_encode, addrField_encode]
  exact (opcodeMap_statement i).2

theorem encode_injective : Function.Injective encode := by
  intro i j h
  have hd : decode (encode i) = decode (encode j) := congrArg decode h
  simpa using hd

/-- R51: an instruction made of the fields of a word encodes to that word. -/
theorem encode_eq_of_fields {w : Word} {i : Instr} (hop : i.mnemonic.opcode = opcodeField w)
    (hx : i.operand = addrField w) : encode i = w := by
  apply BitVec.eq_of_toNat_eq
  rw [encode_toNat, hop, hx, ← toNat_eq_opcodeField_mul_add_addrField]

/-- R54: every word is the encoding of the instruction it decodes to. -/
theorem exists_decode_eq_encode_eq (w : Word) : ∃ i, decode w = .instr i ∧ encode i = w := by
  obtain ⟨i, hi, hop, hx⟩ := decode_total w
  exact ⟨i, hi, encode_eq_of_fields hop hx⟩

/-- Settles O3: the fields of the encoding are the opcode and the operand, and the opcode map reads the instruction from
them. -/
theorem decodeOfEncodeIsTheInstruction : Obligations.DecodeOfEncodeIsTheInstruction := fun i _ => decode_encode i

/-- Settles O4: the word encodes the instruction it decodes to, and the encoding is injective. -/
theorem everyWordIsExactlyOneInstruction : Obligations.EveryWordIsExactlyOneInstruction := by
  intro w
  obtain ⟨i, hdecode, hencode⟩ := exists_decode_eq_encode_eq w
  exact ⟨i, hdecode, hencode, fun j hj => encode_injective (hj.trans hencode.symm)⟩

/-- Settles O5: eight closed words. -/
theorem knownWordsDecodeAsListed : Obligations.KnownWordsDecodeAsListed := by
  unfold Obligations.KnownWordsDecodeAsListed
  decide

/-! ### The text decoder -/

theorem decodeText_of_wellFormed {cs : List Char} (h : wellFormedText 13 cs = true) :
    decodeText cs = decode (BitVec.ofNat 13 (binaryToDecimal cs)) :=
  if_pos h

theorem decodeText_of_not_wellFormed {cs : List Char} (h : wellFormedText 13 cs = false) :
    decodeText cs = .rejected .widthViolation :=
  if_neg (by simp [h])

/-- Settles O6: the value of a well-formed text is a word, which decodes; any other text takes the rejecting branch. -/
theorem decodeErrorIsExactlyTheWrongWidth : Obligations.DecodeErrorIsExactlyTheWrongWidth := by
  refine fun cs => ⟨fun h => ?accepted, decodeText_of_not_wellFormed⟩
  case accepted =>
    obtain ⟨i, hdecode, hencode⟩ := exists_decode_eq_encode_eq (BitVec.ofNat 13 (binaryToDecimal cs))
    refine ⟨i, (decodeText_of_wellFormed h).trans hdecode, ?_⟩
    rw [hencode, BitVec.toNat_ofNat, Nat.mod_eq_of_lt (binaryToDecimal_lt_of_wellFormedText h)]

end Sys2Proof
end

section
/-! PROOFS. Memory: a canonical memory is determined by its cells (10_state.md R21, 20_memory.md R31), and what a read
delivers (R33, R34). Reset's values (10_state.md R27). -/

namespace Sys2Proof.Machine

/-! ### Canonical memories -/

/-- In a canonical memory the first entry of an address is its only one: the cells are the entries. -/
theorem Memory.cell_eq_some_iff {m : Memory} (h : m.Pairwise fun p q => p.1 < q.1) (a : Nat) (v : Word) :
    Memory.cell m a = some v ↔ (a, v) ∈ m := by
  induction m with
  | nil => simp [Memory.cell, Memory.unlisted]
  | cons p rest ih =>
    obtain ⟨b, w⟩ := p
    obtain ⟨hlt, hrest⟩ := List.pairwise_cons.mp h
    by_cases hb : b = a
    · subst hb
      have hnot : (b, v) ∉ rest := fun hmem => Nat.lt_irrefl b (hlt _ hmem)
      simp [Memory.cell, hnot, eq_comm]
    · simp [Memory.cell, hb, Ne.symm hb, ih hrest]

/-- Cell by cell, an entry of one canonical memory is one of the other. -/
theorem Memory.subset_of_cell_eq {m n : Memory} (hm : m.wf) (hn : n.wf)
    (h : ∀ a < Config.memSize, Memory.cell m a = Memory.cell n a) : m ⊆ n := by
  rintro ⟨a, v⟩ hp
  have hcell := (Memory.cell_eq_some_iff hm.1 a v).mpr hp
  rw [h a (hm.2 _ hp)] at hcell
  exact (Memory.cell_eq_some_iff hn.1 a v).mp hcell

/-- Two canonical memories with the same cells have the same entries, in the same rising order. -/
theorem Memory.eq_of_cell_eq {m n : Memory} (hm : m.wf) (hn : n.wf)
    (h : ∀ a < Config.memSize, Memory.cell m a = Memory.cell n a) : m = n :=
  List.Pairwise.eq_of_mem_iff hm.1 hn.1 fun _ =>
    ⟨fun hp => Memory.subset_of_cell_eq hm hn h hp,
      fun hp => Memory.subset_of_cell_eq hn hm (fun a ha => (h a ha).symm) hp⟩

/-- Settles O10: at an address that names a cell, a state's cell is the entry of its memory. -/
theorem canonicalMemoriesAreDeterminedByTheirCells : Obligations.CanonicalMemoriesAreDeterminedByTheirCells := by
  intro s t hs ht hcells
  refine Memory.eq_of_cell_eq hs ht fun a ha => ?_
  rw [← s.memCell_of_lt ha, ← t.memCell_of_lt ha, hcells a]

/-! ### Reads -/

theorem State.memRead_of_some {s : State} {a : Addr} {v : Word} (h : s.memCell a.toNat = some v) : s.memRead a = v := by
  rw [State.memRead, h, Option.getD_some]

theorem State.memRead_of_none {s : State} {a : Addr} (h : s.memCell a.toNat = none) : s.memRead a = 0#13 := by
  rw [State.memRead, h, Option.getD_none]

/-- Settles O9: a read by the cell's content, and there is no cell at 1004 and above. -/
theorem memoryReadDelivers : Obligations.MemoryReadDelivers := fun s _ =>
  ⟨fun _ => State.memRead_of_some, fun h => congrArg BitVec.toNat (State.memRead_of_none h), fun h => s.memCell_of_ge h⟩

/-! ### Reset -/

theorem State.reset_memCell (a : Nat) : State.reset.memCell a = none := ite_self none

/-- Settles O1: the values that `State.resetWith` lists, and the empty image of `State.reset`. -/
theorem resetLeavesTheStateOfR27 : Obligations.ResetLeavesTheStateOfR27 :=
  ⟨fun image => ⟨State.resetWith image, rfl, rfl, rfl, rfl, rfl, rfl, rfl, rfl, rfl, rfl, rfl, rfl, rfl⟩, rfl,
    State.reset_memCell⟩

end Sys2Proof.Machine
end

section
/-! PROOFS. The instructions (41_data_transfer.md, 42_arithmetic.md): result, completion and frame of each, the store
out of range, and the unknown-opcode fallback (43_control.md R96). -/

namespace Sys2Proof.Machine

/-! ### `LDMQ` and the arithmetic instructions

Each writes at most `AC` and `MQ` and completes, so all have one frame. -/

/-- R73, R85: an instruction that writes `AC` and `MQ` and completes leaves `MBR`, `MAR`, `IR`, the interrupt controller
and every cell alone, and has moved on. -/
theorem State.setAc_setMq_complete_frame (s : State) (a q : Word) (m : Mnemonic) :
    (((s.setAc a).setMq q).complete m).mbr = s.mbr ∧ sameControl s (((s.setAc a).setMq q).complete m) ∧
    sameCells s (((s.setAc a).setMq q).complete m) ∧ movedOn s (((s.setAc a).setMq q).complete m) (.exec m) :=
  ⟨rfl, ⟨rfl, rfl, rfl, rfl⟩, fun _ => rfl, State.complete_movedOn rfl rfl m⟩

/-- R81: `AC` keeps its value. -/
theorem exec_ldmq (x : Addr) (s : State) :
    exec (.ldmq x) s = .next (((s.setAc s.ac).setMq (s.memRead x)).complete .LDMQ) := rfl

/-- R86: `MQ` keeps its value. -/
theorem exec_add (x : Addr) (s : State) :
    exec (.add x) s = .next (((s.setAc (aluAdd s.ac (s.memRead x))).setMq s.mq).complete .ADD) := rfl

/-- R87: `MQ` keeps its value. -/
theorem exec_sub (x : Addr) (s : State) :
    exec (.sub x) s = .next (((s.setAc (aluSub s.ac (s.memRead x))).setMq s.mq).complete .SUB) := rfl

/-- R88 -/
theorem exec_mul (x : Addr) (s : State) :
    exec (.mul x) s =
      .next (((s.setAc (aluMulLow s.ac (s.memRead x))).setMq (aluMulHigh s.ac (s.memRead x))).complete .MUL) := rfl

/-- R89: a non-zero operand passes the zero check. -/
theorem exec_div_of_operand_ne_zero {s : State} {x : Addr} (h : (s.memRead x).toNat ≠ 0) :
    exec (.div x) s = .next
      (((s.setAc (aluQuotient s.ac (s.memRead x))).setMq (aluRemainder s.ac (s.memRead x))).complete .DIV) := by
  rcases execDiv_cases x s with ⟨hzero, -⟩ | ⟨-, e⟩
  · exact absurd (congrArg BitVec.toNat hzero) h
  · exact e

/-- Settles O23: `MQ` is what was read. -/
theorem ldmqResultAndFrame : Obligations.LdmqResultAndFrame := fun s x =>
  ⟨_, exec_ldmq x s, rfl, rfl, s.setAc_setMq_complete_frame s.ac (s.memRead x) .LDMQ⟩

/-- Settles O26: `AC` is the sum. -/
theorem addResultAndFrame : Obligations.AddResultAndFrame := fun s x =>
  ⟨_, exec_add x s, aluAdd_toNat s.ac (s.memRead x), rfl, s.setAc_setMq_complete_frame _ s.mq .ADD⟩

/-- R87: the difference, with the borrow case said apart. -/
theorem aluSub_toNat_eq_ite (a m : Word) :
    (aluSub a m).toNat = if a.toNat < m.toNat then a.toNat + 8192 - m.toNat else a.toNat - m.toNat := by
  have ha := a.isLt
  have hm := m.isLt
  rw [aluSub_toNat]
  split <;> omega

/-- R85: the exact integer difference, narrowed. -/
theorem aluSub_toNat_cast (a m : Word) : ((aluSub a m).toNat : Int) = ((a.toNat : Int) - m.toNat) % 8192 := by
  have ha := a.isLt
  have hm := m.isLt
  rw [aluSub_toNat]
  omega

/-- Settles O27: `AC` is the difference. -/
theorem subResultAndFrame : Obligations.SubResultAndFrame := fun s x =>
  ⟨_, exec_sub x s, aluSub_toNat_eq_ite s.ac (s.memRead x), rfl, s.setAc_setMq_complete_frame _ s.mq .SUB⟩

/-- R88: the two halves recover the product. -/
theorem aluMulHigh_mul_add_aluMulLow (a m : Word) :
    (aluMulHigh a m).toNat * 8192 + (aluMulLow a m).toNat = a.toNat * m.toNat := by
  rw [aluMulHigh_toNat, aluMulLow_toNat, Nat.div_add_mod']

/-- R88: the largest product is 8191 * 8191, whose high half is 8190. -/
theorem aluMulHigh_le (a m : Word) : (aluMulHigh a m).toNat ≤ 8190 := by
  have hproduct : a.toNat * m.toNat ≤ 8191 * 8191 :=
    Nat.mul_le_mul (Nat.le_of_lt_succ a.isLt) (Nat.le_of_lt_succ m.isLt)
  rw [aluMulHigh_toNat]
  omega

/-- Settles O28: the two halves of the product. -/
theorem mulResultAndFrame : Obligations.MulResultAndFrame := by
  intro s x
  refine ⟨_, exec_mul x s, ?low, ?high, ?product, ?bound, s.setAc_setMq_complete_frame _ _ .MUL⟩
  case low => exact aluMulLow_toNat s.ac (s.memRead x)
  case high => exact aluMulHigh_toNat s.ac (s.memRead x)
  case product => exact aluMulHigh_mul_add_aluMulLow s.ac (s.memRead x)
  case bound => exact aluMulHigh_le s.ac (s.memRead x)

/-- R89: quotient and remainder recover the dividend. -/
theorem aluQuotient_mul_add_aluRemainder (a m : Word) :
    a.toNat = (aluQuotient a m).toNat * m.toNat + (aluRemainder a m).toNat := by
  rw [aluQuotient_toNat, aluRemainder_toNat, Nat.div_add_mod']

theorem aluRemainder_lt (a : Word) {m : Word} (h : m.toNat ≠ 0) : (aluRemainder a m).toNat < m.toNat := by
  rw [aluRemainder_toNat]
  exact Nat.mod_lt _ (Nat.pos_of_ne_zero h)

/-- Settles O29: quotient and remainder of the same division. -/
theorem divResultAndFrame : Obligations.DivResultAndFrame := by
  intro s x hm
  refine ⟨_, exec_div_of_operand_ne_zero hm, ?quotient, ?remainder, ?recover, ?bound,
    s.setAc_setMq_complete_frame _ _ .DIV⟩
  case quotient => exact aluQuotient_toNat s.ac (s.memRead x)
  case remainder => exact aluRemainder_toNat s.ac (s.memRead x)
  case recover => exact aluQuotient_mul_add_aluRemainder s.ac (s.memRead x)
  case bound => exact aluRemainder_lt s.ac hm

/-! ### `ST` -/

/-- R82: a store to an address that names a cell. -/
theorem exec_st_of_lt {s : State} {x : Addr} (h : x.toNat < Config.memSize) :
    exec (.st x) s = .next ((s.setCell x.toNat s.ac).complete .ST) := by
  rcases execSt_cases x s with ⟨-, e⟩ | ⟨hge, -⟩
  · exact e
  · exact absurd h (Nat.not_lt.mpr hge)

/-- R36, R114: a store to an address that names no cell. -/
theorem exec_st_of_ge {s : State} {x : Addr} (h : Config.memSize ≤ x.toNat) :
    exec (.st x) s = .fault (.storeRange x) := by
  rcases execSt_cases x s with ⟨hlt, -⟩ | ⟨-, e⟩
  · exact absurd h (Nat.not_le.mpr hlt)
  · exact e

/-- Settles O24: the state with the cell set, completed. -/
theorem storeResultAndFrame : Obligations.StoreResultAndFrame := by
  intro s x hx
  refine ⟨_, exec_st_of_lt hx, rfl, ?cell, ?others, ?ac, ?mq, ?mbr, ?control, ?moved, ?canonical⟩
  case cell => exact s.memCell_setCell_same hx s.ac
  case others => exact fun a ha => s.memCell_setCell_other ha s.ac
  case ac => exact State.complete_ac _ _
  case mq => exact State.complete_mq _ _
  case mbr => exact State.complete_mbr _ _
  case control => simp [sameControl]
  case moved => exact State.complete_movedOn rfl rfl .ST
  case canonical => exact fun hmem => State.setCell_wf hmem hx s.ac

/-- Settles O25: the range check's failing branch. -/
theorem storeOutOfRangeFaults : Obligations.StoreOutOfRangeFaults := fun _ _ h =>
  ⟨exec_st_of_ge h, fun _ => if_neg (Nat.not_lt.mpr h)⟩

/-! ### The unknown-opcode fallback, and arithmetic over the integers -/

/-- R54: the opcode map has an instruction for every opcode. -/
theorem decodeFields_ne_rejected (op : Opcode) (x : Addr) (e : DecodeError) : decodeFields op x ≠ .rejected e := by
  rcases decodeFields_cases op x with ⟨-, h⟩ | ⟨-, h⟩ | ⟨-, h⟩ | ⟨-, h⟩ | ⟨-, h⟩ | ⟨-, h⟩ | ⟨-, h⟩ | ⟨-, h⟩ <;>
    simp [h]

/-- R96: the fallback ends as a completion does, with its own event. -/
theorem State.raiseUnknownOpcode_movedOn (s : State) : movedOn s s.raiseUnknownOpcode .unknownOpcode :=
  ⟨by rw [raiseUnknownOpcode_pc, nextPC_toNat], raiseUnknownOpcode_phase s, raiseUnknownOpcode_trace s⟩

/-- Settles O32: the fallback writes no data register and no cell, and the opcode map never asks for it. -/
theorem unknownOpcodeFallbackIsNeverReached : Obligations.UnknownOpcodeFallbackIsNeverReached := by
  refine ⟨fun s => ⟨s.raiseUnknownOpcode, rfl, ?ac, ?mq, ?mbr, ?control, ?cells, ?moved⟩, decodeFields_ne_rejected⟩
  case ac => exact s.raiseUnknownOpcode_ac
  case mq => exact s.raiseUnknownOpcode_mq
  case mbr => exact s.raiseUnknownOpcode_mbr
  case control => simp [sameControl]
  case cells => exact s.raiseUnknownOpcode_memCell
  case moved => exact s.raiseUnknownOpcode_movedOn

/-- Settles O33: each instruction's own result, read over the integers. -/
theorem arithmeticIsExactThenNarrowed : Obligations.ArithmeticIsExactThenNarrowed := by
  rintro s x m rfl
  refine ⟨?add, ?sub, ?mul, fun hm => ?div, fun hm => ?divZero⟩
  case add =>
    obtain ⟨t, hexec, hac, -, -, -, -, -, -, htrace⟩ := addResultAndFrame s x
    exact ⟨t, hexec, by omega, htrace⟩
  case sub =>
    exact ⟨_, exec_sub x s, aluSub_toNat_cast s.ac (s.memRead x), rfl⟩
  case mul =>
    obtain ⟨t, hexec, -, -, hproduct, -, -, -, -, -, -, htrace⟩ := mulResultAndFrame s x
    exact ⟨t, hexec, by rw [Nat.mul_comm, hproduct], aluProduct_lt s.ac (s.memRead x), htrace⟩
  case div =>
    obtain ⟨t, hexec, -, -, hrecover, hbound, -, -, -, -, -, htrace⟩ := divResultAndFrame s x hm
    have hnext : (t.ac.toNat + 1) * (s.memRead x).toNat = t.ac.toNat * (s.memRead x).toNat + (s.memRead x).toNat :=
      Nat.succ_mul _ _
    exact ⟨t, hexec, by omega, by omega, by omega, htrace⟩
  case divZero =>
    obtain ⟨t, hexec, hac, hmq, -, -, -, -, hphase, -⟩ := divByZeroCompletesWithoutAResult s x hm
    exact ⟨t, hexec, hac, hmq, hphase⟩

end Sys2Proof.Machine
end

section
/-! PROOFS. One tick, said once as the list of what it can answer, and what follows for the cursor, `PC`, the trace and
the cells (40_engine_cycle.md, 10_state.md, 20_memory.md R37). -/

namespace Sys2Proof.Machine

/-! ### What a tick can answer -/

/-- The next states a tick can answer (R61, R62, R66, R69), each with the phase and the opcode it comes from. -/
inductive TickTo (s : State) : State → Prop
  /-- an interrupt service (R120) -/
  | service (hphase : s.phase = .fetch) (hpending : s.pending ≠ []) : TickTo s s.serviceInterrupt
  | idle (hphase : s.phase = .idle) : TickTo s (idleStep s)
  | fetch (hphase : s.phase = .fetch) (hpending : s.pending = []) : TickTo s (fetchStep s)
  | decode (hphase : s.phase = .decode) : TickTo s (decodeStep s)
  /-- `ST` to an address that names a cell (R82) -/
  | store (hphase : s.phase = .execute) (hir : s.ir = 7#3) (hmar : s.mar.toNat < Config.memSize) :
      TickTo s ((s.setCell s.mar.toNat s.ac).complete .ST)
  /-- `HALT` (R95) -/
  | halt (hphase : s.phase = .execute) (hir : s.ir = 5#3) : TickTo s ((s.emit .halt).enterPhase .halted)
  /-- the six other instructions: they write at most `MBR`, `AC` and `MQ` (R73) -/
  | data (hphase : s.phase = .execute) (hst : s.ir ≠ 7#3) (hhalt : s.ir ≠ 5#3) (b a q : Word) (e : TraceEvent) :
      TickTo s ((((s.setMbr b).setAc a).setMq q).emit e).advance
  /-- a stray tick (R69, D14) -/
  | halted (hphase : s.phase = .halted) : TickTo s s

theorem tickTo_of_step {s t : State} (hs : step s = .next t) : TickTo s t := by
  rcases step_cases s with ⟨hp, hq, e⟩ | ⟨hp, e⟩ | ⟨hp, hq, e⟩ | ⟨hp, e⟩ | ⟨hp, -⟩ | ⟨hp, e⟩
  case inr.inr.inr.inr.inl =>
    rcases step_execute_cases hp with ⟨-, -, e⟩ | ⟨hir, hmar, e⟩ | ⟨hir, e⟩ | ⟨hst, hhalt, b, a, q, ev, e⟩ <;>
      cases e.symm.trans hs
    · exact .store hp hir hmar
    · exact .halt hp hir
    · exact .data hp hst hhalt b a q ev
  all_goals cases e.symm.trans hs
  · exact .service hp hq
  · exact .idle hp
  · exact .fetch hp hq
  · exact .decode hp
  · exact .halted hp

/-- The registers that a service leaves alone (R121), for any queue that is not empty. -/
theorem State.serviceInterrupt_pc_cursor {s : State} (hq : s.pending ≠ []) :
    s.serviceInterrupt.pc = s.pc ∧ s.serviceInterrupt.cursor = s.cursor := by
  obtain ⟨id, rest, h⟩ := List.exists_cons_of_ne_nil hq
  obtain ⟨hpc, -, -, -, -, -, hcursor, -⟩ := State.serviceInterrupt_registers h
  exact ⟨hpc, hcursor⟩

/-! ### The cursor and the program counter -/

/-- Settles O14: every tick that enters a phase sets the cursor to 0, and the two that do not, a service and a stray
tick, leave phase and cursor alone. -/
theorem theCursorReturnsToZeroWithThePhase : Obligations.TheCursorReturnsToZeroWithThePhase := by
  intro s t hs
  cases tickTo_of_step hs with
  | service _ hq =>
    exact ⟨absurd (State.serviceInterrupt_phase hq), fun _ => (State.serviceInterrupt_pc_cursor hq).2⟩
  | idle hp | fetch hp | decode hp | store hp | halt hp | data hp =>
    exact ⟨fun _ => rfl, fun h => nomatch h.trans hp⟩
  | halted _ => exact ⟨absurd rfl, fun _ => rfl⟩

/-- Settles O19: a completed instruction advances `PC`, and no other tick writes it. -/
theorem pcMovesOnlyAtTheEndOfExecute : Obligations.PcMovesOnlyAtTheEndOfExecute := by
  intro s t hs
  cases tickTo_of_step hs with
  | service hp hq => exact ⟨by simp [hp], fun _ => (State.serviceInterrupt_pc_cursor hq).1⟩
  | idle hp | fetch hp | decode hp | halted hp => exact ⟨by simp [hp], fun _ => rfl⟩
  | store hp hir => exact ⟨fun _ => nextPC_toNat s.pc, fun h => absurd ⟨hp, by simp [hir]⟩ h⟩
  | halt _ hir => exact ⟨fun h => absurd hir h.2, fun _ => rfl⟩
  | data hp _ hhalt => exact ⟨fun _ => nextPC_toNat s.pc, fun h => absurd ⟨hp, hhalt⟩ h⟩

/-! ### The trace -/

/-- The event of an instruction's execute step, where it answers a state (R24, R90, R95). -/
def Instr.event (i : Instr) (s : State) : TraceEvent :=
  match i with
  | .halt _ => .halt
  | .div x => if (s.memRead x).toNat = 0 then .divByZero else .exec .DIV
  | i => .exec i.mnemonic

theorem exec_trace {i : Instr} {s t : State} (h : exec i s = .next t) : t.trace = s.trace ++ [Instr.event i s] := by
  cases i with
  | div x =>
    by_cases hm : (s.memRead x).toNat = 0
    · cases (exec_div_of_operand_eq_zero (BitVec.eq_of_toNat_eq hm)).symm.trans h
      simp [Instr.event, hm]
    · cases (exec_div_of_operand_ne_zero hm).symm.trans h
      simp [Instr.event, hm]
  | st x =>
    rcases execSt_cases x s with ⟨-, e⟩ | ⟨-, e⟩ <;> cases e.symm.trans h
    rfl
  | _ => cases h; rfl

/-- Settles O20: the events of the steps as the model emits them; in `execute`, the event of the instruction in `IR`. -/
theorem everyTickAppendsItsEvent : Obligations.EveryTickAppendsItsEvent := by
  intro s t hs hne
  rcases step_cases s with ⟨hp, hq, e⟩ | ⟨hp, e⟩ | ⟨hp, hq, e⟩ | ⟨hp, e⟩ | ⟨hp, e⟩ | ⟨hp, -⟩ <;> simp only [hp]
  case inl =>
    obtain ⟨id, rest, hcons⟩ := List.exists_cons_of_ne_nil hq
    obtain ⟨-, -, -, -, -, -, -, -, -, -, htrace⟩ := State.serviceInterrupt_registers hcons
    cases e.symm.trans hs
    refine ⟨_, htrace, ?_⟩
    rw [if_neg hq]
    exact ⟨id, s.nextCounter, by simp [hcons], rfl, by simp [State.serviceInterrupt_memCell]⟩
  case inr.inl =>
    cases e.symm.trans hs
    exact ⟨.start, rfl, rfl⟩
  case inr.inr.inl =>
    cases e.symm.trans hs
    exact ⟨.fetch, rfl, if_pos hq ▸ rfl⟩
  case inr.inr.inr.inl =>
    cases e.symm.trans hs
    exact ⟨.decode, rfl, rfl⟩
  case inr.inr.inr.inr.inl =>
    obtain ⟨i, -, hop, hx, hexec⟩ := executeStep_eq_exec s
    refine ⟨Instr.event i s, exec_trace (hexec.symm.trans (e.symm.trans hs)), ?_⟩
    rw [← hop, ← hx]
    cases i with
    | div x =>
      by_cases hm : (s.memRead x).toNat = 0 <;>
        simp [Instr.event, Instr.mnemonic, Instr.operand, Mnemonic.opcode, hm]
    | _ => simp [Instr.event, Instr.mnemonic, Mnemonic.opcode]
  case inr.inr.inr.inr.inr => exact absurd hp hne

/-! ### The cells -/

/-- R37: what a tick can do to a cell: leave it, store `AC` in it, or, in a service, make it present. -/
theorem step_memCell {s t : State} (hs : step s = .next t) (a : Nat) :
    t.memCell a = s.memCell a ∨
    (s.phase = .execute ∧ s.ir = 7#3 ∧ a = s.mar.toNat ∧ t.memCell a = some s.ac) ∨
    (s.phase = .fetch ∧ s.pending ≠ [] ∧ (a = 1001 ∨ a = 1003) ∧ t.memCell a ≠ none) := by
  cases tickTo_of_step hs with
  | service hp hq =>
    rw [State.serviceInterrupt_memCell]
    split
    next h3 => exact .inr (.inr ⟨hp, hq, .inr h3, by simp⟩)
    next =>
      split
      next h1 => exact .inr (.inr ⟨hp, hq, .inl h1, by simp⟩)
      next => exact .inl rfl
  | store hp hir hmar =>
    by_cases ha : a = s.mar.toNat
    · exact .inr (.inl ⟨hp, hir, ha, ha ▸ s.memCell_setCell_same hmar s.ac⟩)
    · exact .inl (s.memCell_setCell_other ha s.ac)
  | _ => exact .inl rfl

/-- Settles O35: a cell that changed was not left alone. -/
theorem onlyStoresAndServicesWriteMemory : Obligations.OnlyStoresAndServicesWriteMemory := by
  intro s t hs a hne
  rcases step_memCell hs a with h | h | ⟨hp, hq, ha, -⟩
  · exact absurd h hne
  · exact .inl h
  · exact .inr ⟨hp, hq, ha⟩

/-- Settles O36: a cell left alone stays present, and one written is present. -/
theorem noTickEmptiesACell : Obligations.NoTickEmptiesACell := by
  intro s t hs a hne
  rcases step_memCell hs a with h | ⟨-, -, -, h⟩ | ⟨-, -, -, h⟩
  · exact h ▸ hne
  · simp [h]
  · exact h

/-! ### The one stop -/

/-- R9, R114: only the execute tick of a store out of range answers no state. -/
theorem step_stops_or_next (s : State) :
    (s.storeOutOfRange ∧ step s = .fault (.storeRange s.mar)) ∨ (¬ s.storeOutOfRange ∧ ∃ t, step s = .next t) := by
  rcases step_cases s with ⟨hp, -, e⟩ | ⟨hp, e⟩ | ⟨hp, -, e⟩ | ⟨hp, e⟩ | ⟨hp, -⟩ | ⟨hp, e⟩
  case inr.inr.inr.inr.inl =>
    rcases step_execute_cases hp with ⟨hir, hmar, e⟩ | ⟨-, hmar, e⟩ | ⟨hir, e⟩ | ⟨hir, -, b, a, q, ev, e⟩
    · exact .inl ⟨⟨hp, hir, hmar⟩, e⟩
    · exact .inr ⟨fun h => Nat.not_lt.mpr h.2.2 hmar, _, e⟩
    · exact .inr ⟨fun h => absurd (hir.symm.trans h.2.1) (by decide), _, e⟩
    · exact .inr ⟨fun h => hir h.2.1, _, e⟩
  all_goals exact .inr ⟨fun h => (nomatch hp.symm.trans h.1), _, e⟩

theorem step_of_storeOutOfRange {s : State} (h : s.storeOutOfRange) : step s = .fault (.storeRange s.mar) := by
  rcases step_stops_or_next s with ⟨-, e⟩ | ⟨hno, -⟩
  · exact e
  · exact absurd h hno

theorem step_ne_refused (s : State) (r : Refusal) : step s ≠ .refused r := by
  rcases step_stops_or_next s with ⟨-, e⟩ | ⟨-, t, e⟩ <;> simp [e]

theorem step_eq_fault_iff (s : State) (r : Fault) :
    step s = .fault r ↔ s.storeOutOfRange ∧ r = .storeRange s.mar := by
  rcases step_stops_or_next s with ⟨h, e⟩ | ⟨h, t, e⟩
  · rw [e]
    exact ⟨fun hr => ⟨h, by cases hr; rfl⟩, fun ⟨_, hr⟩ => hr ▸ rfl⟩
  · rw [e]
    exact ⟨nofun, fun ⟨hstore, _⟩ => absurd hstore h⟩

/-- Settles O34: a tick stops at a store out of range and answers a state everywhere else. -/
theorem theOnlyStopIsAStoreOutOfRange : Obligations.TheOnlyStopIsAStoreOutOfRange := by
  refine fun s => ⟨step_ne_refused s, fun r => ?_⟩
  rw [step_eq_fault_iff, and_assoc, and_assoc]
  rfl

end Sys2Proof.Machine
end

section
/-! PROOFS. The machine's invariant (10_state.md section 7): reset establishes it, every tick keeps it, and so does
every interleaving of ticks, triggers and resets. -/

namespace Sys2Proof.Machine

/-! ### The invariant, established and kept -/

/-- In phases `idle` and `fetch` the invariant speaks of the memory, `PC` and the cursor alone. -/
theorem State.Inv.of_idle_or_fetch {s : State} (hphase : s.phase = .idle ∨ s.phase = .fetch) (hmem : s.mem.wf)
    (hpc : s.pc.toNat < Config.progSpace) (hcursor : s.cursor = 0) : s.Inv := by
  refine ⟨hmem, hpc, hcursor, ?_, ?_, ?_⟩ <;> rcases hphase with h | h <;> simp [h]

/-- R27: the reset state over a canonical image. -/
theorem State.resetWith_inv {image : Memory} (h : image.wf) : (State.resetWith image).Inv := by
  have hentry : Config.entryPoint.toNat < Config.progSpace := by decide
  exact .of_idle_or_fetch (.inl rfl) h hentry rfl

/-- Settles O48: the invariant in `idle`, over the empty memory and over any canonical one. -/
theorem resetMeetsTheInvariant : Obligations.ResetMeetsTheInvariant :=
  ⟨State.resetWith_inv Memory.empty_wf, fun _ => State.resetWith_inv⟩

theorem nextPC_lt_progSpace (p : Addr) : (nextPC p).toNat < Config.progSpace :=
  (nextPcIsPlusOneModulo1000 p).2

theorem State.Inv.serviceInterrupt {s : State} (h : s.Inv) (hphase : s.phase = .fetch) (hq : s.pending ≠ []) :
    s.serviceInterrupt.Inv := by
  obtain ⟨hmem, hpc, hcursor, -⟩ := h
  obtain ⟨id, rest, hq⟩ := List.exists_cons_of_ne_nil hq
  obtain ⟨hpc', -, -, -, -, hphase', hcursor', -⟩ := State.serviceInterrupt_registers hq
  exact .of_idle_or_fetch (.inr (hphase'.trans hphase)) (State.serviceInterrupt_wf hmem) (hpc' ▸ hpc)
    (hcursor'.trans hcursor)

/-- R64: fetch leaves `PC` in `MAR` and the word there in `MBR`, which is what the invariant asks in `decode`. -/
theorem State.Inv.fetchStep {s : State} (h : s.Inv) : (fetchStep s).Inv := by
  obtain ⟨hmem, hpc, -⟩ := h
  refine ⟨hmem, hpc, rfl, fun _ => ⟨rfl, rfl⟩, ?_, ?_⟩ <;> simp [Machine.fetchStep]

/-- R65: decode splits `MBR`, which keeps the word at `PC`. -/
theorem State.Inv.decodeStep {s : State} (h : s.Inv) (hphase : s.phase = .decode) : (decodeStep s).Inv := by
  obtain ⟨hmem, hpc, -, hdecode, -⟩ := h
  have hmbr : s.mbr = s.memRead s.pc := (hdecode hphase).2
  exact ⟨hmem, hpc, rfl, fun hp => (by cases hp), fun _ => ⟨rfl, rfl, hmbr⟩, fun hp => (by cases hp)⟩

/-- R95: `HALT` leaves the registers that the invariant speaks of. -/
theorem State.Inv.halt {s : State} (h : s.Inv) (hphase : s.phase = .execute) (hir : s.ir = Mnemonic.HALT.opcode) :
    ((s.emit .halt).enterPhase .halted).Inv := by
  obtain ⟨hmem, hpc, -, -, hexecute, -⟩ := h
  exact ⟨hmem, hpc, rfl, fun hp => (by cases hp), fun _ => hexecute (.inl hphase), fun _ => hir⟩

/-- Settles O49: by the kind of tick. One that ends in `fetch` needs the memory and `PC` alone. -/
theorem everyStepKeepsTheInvariant : Obligations.EveryStepKeepsTheInvariant := by
  intro s t h hs
  have ⟨hmem, hpc, _⟩ := h
  cases tickTo_of_step hs with
  | service hp hq => exact h.serviceInterrupt hp hq
  | idle _ => exact .of_idle_or_fetch (.inr rfl) hmem hpc rfl
  | fetch _ _ => exact h.fetchStep
  | decode hp => exact h.decodeStep hp
  | store _ _ hmar =>
    exact .of_idle_or_fetch (.inr rfl) (State.setCell_wf hmem hmar s.ac) (nextPC_lt_progSpace s.pc) rfl
  | halt hp hir => exact h.halt hp hir
  | data => exact .of_idle_or_fetch (.inr rfl) hmem (nextPC_lt_progSpace s.pc) rfl
  | halted _ => exact h

/-! ### Sessions -/

/-- A tick of a session keeps the invariant, also where it faults: the core is then left as it was (R114). -/
theorem Session.apply_tick_inv {σ : Session} (h : σ.core.Inv) : (σ.apply .tick).core.Inv := by
  simp only [Session.apply]
  split
  · exact h
  · split
    next t hs => exact everyStepKeepsTheInvariant _ t h hs
    next => exact h
    next => exact h

/-- Settles O50: by induction over the events. A trigger touches the queue alone, of which the invariant says
nothing. -/
theorem everyInterleavingKeepsTheInvariant : Obligations.EveryInterleavingKeepsTheInvariant := by
  intro σ es h hes
  induction es generalizing σ with
  | nil => exact h
  | cons e es ih =>
    obtain ⟨he, hes⟩ := List.forall_mem_cons.mp hes
    refine ih (σ.apply e) ?_ hes
    rcases he with rfl | rfl | ⟨id, rfl⟩
    · exact Session.apply_tick_inv h
    · exact State.resetWith_inv h.1
    · exact h

end Sys2Proof.Machine
end

section
/-! PROOFS. Several ticks: the fetch and decode of an instruction (40_engine_cycle.md R64 to R66, R72), a stored word
fetched next (20_memory.md R45), an empty cell executed (30_encoding.md R56), and a halted core (R69). -/

namespace Sys2Proof.Machine

/-! ### Fetch, decode, execute -/

theorem ticks_one (s : State) : ticks 1 s = step s := by
  unfold ticks runWith
  cases step s <;> rfl

/-- Settles O12: the fetch step, its word by what a read delivers. -/
theorem fetchStepLoadsMarAndMbr : Obligations.FetchStepLoadsMarAndMbr := fun s hp hq =>
  ⟨s.memRead s.pc, 0, step_fetch hp hq, memoryReadDelivers s s.pc |>.1, memoryReadDelivers s s.pc |>.2.1⟩

/-- R66: the execute tick runs the instruction that `IR` and `MAR` hold. -/
theorem step_eq_exec {s : State} {i : Instr} (hp : s.phase = .execute) (h : decodeFields s.ir s.mar = .instr i) :
    step s = exec i s := by
  rw [step_execute hp, executeStep, h]

/-- R64, R65: what the fetch and the decode step leave. -/
theorem decodeStep_fetchStep (s : State) :
    decodeStep (fetchStep s) =
      { s with
        mar := addrField (s.memRead s.pc), mbr := s.memRead s.pc, ir := opcodeField (s.memRead s.pc)
        phase := .execute, cursor := 0, trace := s.trace ++ [TraceEvent.fetch, TraceEvent.decode] } := by
  have htrace : s.trace ++ [TraceEvent.fetch] ++ [TraceEvent.decode] =
      s.trace ++ [TraceEvent.fetch, TraceEvent.decode] :=
    List.append_assoc _ _ _
  rw [← htrace]
  rfl

theorem ticks_two_of_fetch {s : State} (hp : s.phase = .fetch) (hq : s.pending = []) :
    ticks 2 s = .next (decodeStep (fetchStep s)) := by
  rw [ticks_succ_of_next (step_fetch hp hq), ticks_one, step_decode rfl]

/-- R66: after fetch and decode the tick executes the word that was fetched. -/
theorem step_decodeStep_fetchStep {s : State} {i : Instr} (hi : decode (s.memRead s.pc) = .instr i) :
    step (decodeStep (fetchStep s)) = exec i (decodeStep (fetchStep s)) :=
  step_eq_exec rfl hi

/-- R72: the third tick is the execute step of the word that was fetched. -/
theorem ticks_three_of_fetch {s : State} {i : Instr} (hp : s.phase = .fetch) (hq : s.pending = [])
    (hi : decode (s.memRead s.pc) = .instr i) : ticks 3 s = exec i (decodeStep (fetchStep s)) := by
  rw [ticks_add (ticks_two_of_fetch hp hq) 1, ticks_one, step_decodeStep_fetchStep hi]

/-- R51: the instruction a word decodes to has the word's fields. -/
theorem fields_of_decode {w : Word} {i : Instr} (h : decode w = .instr i) :
    i.mnemonic.opcode = opcodeField w ∧ i.operand = addrField w := by
  obtain ⟨j, hj, hfields⟩ := decode_total w
  cases hj.symm.trans h
  exact hfields

/-- Settles O15: in `execute` by the dispatch, from `fetch` by two ticks more. -/
theorem stepRunsTheDecodedInstruction : Obligations.StepRunsTheDecodedInstruction := by
  refine ⟨fun s i => step_eq_exec, fun s i hp hq _ hi => ?_⟩
  obtain ⟨hop, hx⟩ := fields_of_decode hi
  rw [ticks_three_of_fetch hp hq hi, decodeStep_fetchStep, hop, hx]

theorem State.withFetchWord_toNat (s : State) (w : Word) : s.withFetchWord 13 w.toNat = s.placeFetched w := by
  rw [State.withFetchWord, Nat.mod_eq_of_lt w.isLt, BitVec.ofNat_toNat, BitVec.setWidth_eq]

/-- R64, R65: fetch and decode over the memory with the word in the cell at `PC` leave the placed word, but for the
trace. -/
theorem decodeStep_fetchStep_setCell {s : State} (w : Word) (h : s.pc.toNat < Config.memSize) :
    decodeStep (fetchStep (s.setCell s.pc.toNat w)) =
      { s.placeFetched w with
        phase := .execute, trace := s.trace ++ [TraceEvent.fetch, TraceEvent.decode] } := by
  rw [decodeStep_fetchStep, State.setCell_pc, State.memRead_setCell_same s h, State.placeFetched, if_pos h]
  rfl

/-- Settles O16: the placed word is in `IR` and `MAR`, where the execute step takes it. -/
theorem placedWordIsTheFetchedAndDecodedWord : Obligations.PlacedWordIsTheFetchedAndDecodedWord := by
  intro s w
  rw [State.withFetchWord_toNat]
  refine ⟨?runs, fun hp hq hpc => ?placed⟩
  case runs =>
    obtain ⟨i, hi, -⟩ := decode_total w
    exact ⟨i, hi, step_eq_exec rfl hi⟩
  case placed =>
    rw [ticks_two_of_fetch (s := s.setCell s.pc.toNat w) hp hq, decodeStep_fetchStep_setCell w hpc]
    rfl

/-! ### A stored word, and an empty cell -/

theorem nextPC_lt_memSize (p : Addr) : (nextPC p).toNat < Config.memSize :=
  (nextPC_lt_progSpace p).trans (by decide)

/-- R82: the execute tick of a store to an address that names a cell. -/
theorem step_store {s : State} (hp : s.phase = .execute) (hir : s.ir = 0b111#3) (hmar : s.mar.toNat < Config.memSize) :
    step s = .next ((s.setCell s.mar.toNat s.ac).complete .ST) := by
  have hst : decodeFields s.ir s.mar = .instr (.st s.mar) := by rw [hir]; rfl
  rw [step_eq_exec hp hst, exec_st_of_lt hmar]

/-- Settles O37: after the store the fetch reads the cell just written. -/
theorem storedWordIsFetchedNext : Obligations.StoredWordIsFetchedNext := by
  intro s hp hir hmar hq
  have hlt : s.mar.toNat < Config.memSize := hmar ▸ nextPC_lt_memSize s.pc
  obtain ⟨u, hu⟩ : ∃ u, u = (s.setCell s.mar.toNat s.ac).complete .ST := ⟨_, rfl⟩
  have hrun : ticks 3 s = .next (decodeStep (fetchStep u)) := by
    rw [ticks_succ_of_next (step_store hp hir hlt), ← hu, ticks_two_of_fetch (by rw [hu]; rfl) (by rw [hu]; exact hq)]
  have hpc : u.pc = s.mar := by rw [hu, State.complete_pc, State.setCell_pc, hmar]
  have hword : u.memRead u.pc = s.ac := by
    rw [hpc, hu, State.complete_memRead, State.memRead_setCell_same s hlt]
  have hac : u.ac = s.ac := by rw [hu, State.complete_ac, State.setCell_ac]
  obtain ⟨i, hi, -⟩ := decode_total s.ac
  exact ⟨decodeStep (fetchStep u), i, hrun, hi, rfl, hword, hpc, hac,
    step_decodeStep_fetchStep (by rw [hword, hi])⟩

/-- R56: the all-zero word is `SUB 0`. -/
theorem decode_zero : decode 0#13 = .instr (.sub 0#10) := by decide

/-- Settles O38: the word read from an empty cell is all zero, so the third tick is `SUB 0`'s execute step. -/
theorem emptyCellExecutesAsSubZero : Obligations.EmptyCellExecutesAsSubZero := by
  intro s hp hq hempty
  have hword : s.memRead s.pc = 0#13 := State.memRead_of_none hempty
  have hrun := ticks_three_of_fetch hp hq (hword ▸ decode_zero)
  rw [decodeStep_fetchStep, hword] at hrun
  refine ⟨_, hrun.trans (exec_sub 0#10 _), ?ac, rfl, rfl, rfl, rfl, fun _ => rfl, hq, ?pc, rfl⟩
  case ac => exact aluSub_toNat_cast s.ac (s.memRead 0#10)
  case pc => exact nextPC_toNat s.pc

/-! ### `halted` -/

theorem ticks_of_halted {s : State} (h : s.phase = .halted) (n : Nat) : ticks n s = .next s := by
  induction n with
  | zero => rfl
  | succ n ih => rw [ticks_succ_of_next (step_halted h), ih]

/-- R69: one tick or trigger at a halted core that has not faulted: only the queue grows. -/
theorem Session.apply_of_halted {c : State} (h : c.phase = .halted) (o : Option Config.IntId) :
    (⟨c, none⟩ : Session).apply (match o with | none => Event.tick | some i => Event.trigger i) =
      ⟨{ c with pending := c.pending ++ o.toList }, none⟩ := by
  cases o with
  | none => simp [Session.apply, step_halted h]
  | some i => rfl

/-- Settles O21: by induction over the ticks, and over the events. -/
theorem haltedForEver : Obligations.HaltedForEver := by
  refine ⟨fun s n h => ticks_of_halted h n, ?events⟩
  case events =>
    rintro ⟨c, _⟩ ids h rfl
    induction ids generalizing c with
    | nil => simp [Session.run]
    | cons o ids ih =>
      have hqueue : c.pending ++ (o :: ids).reduceOption = c.pending ++ o.toList ++ ids.reduceOption := by
        cases o <;> simp [List.reduceOption]
      rw [hqueue]
      exact (congrArg (Session.run · _) (Session.apply_of_halted h o)).trans (ih _ h)

end Sys2Proof.Machine
end

section
/-! PROOFS. What no rule reads (10_state.md R12, R22 to R24): `MQ`, the identifiers in the queue, the resolved count and
the trace. -/

namespace Sys2Proof.Machine

/-! ### A service as one record update -/

theorem State.eq_of_fields {s t : State} (hpc : s.pc = t.pc) (hmar : s.mar = t.mar) (hmbr : s.mbr = t.mbr)
    (hir : s.ir = t.ir) (hac : s.ac = t.ac) (hmq : s.mq = t.mq) (hphase : s.phase = t.phase)
    (hcursor : s.cursor = t.cursor) (hmem : s.mem = t.mem) (hpending : s.pending = t.pending)
    (hresolved : s.resolved = t.resolved) (htrace : s.trace = t.trace) : s = t := by
  cases s
  cases t
  simp_all

/-- R120, R121: the whole service. What it writes depends on `PC`, `AC` and the memory. -/
theorem State.serviceInterrupt_eq {s : State} {id : Config.IntId} {rest : List Config.IntId}
    (h : s.pending = id :: rest) :
    s.serviceInterrupt =
      { s with
        ac := BitVec.ofNat 13 (s.ac.toNat + s.serviceOperand.toNat)
        mem :=
          Memory.write
            (if s.memCell 1003 = none then Memory.write (Memory.write s.mem 1001 (s.pc.setWidth 13)) 1003 0#13
              else Memory.write s.mem 1001 (s.pc.setWidth 13)) 1003 s.nextCounter
        pending := rest
        resolved := s.resolved + 1
        trace := s.trace ++ [.interrupt id s.pc s.nextCounter] } := by
  obtain ⟨hpc, hmar, hmbr, hir, hmq, hphase, hcursor, hpending, hresolved, hac, htrace⟩ :=
    State.serviceInterrupt_registers h
  exact State.eq_of_fields hpc hmar hmbr hir hac hmq hphase hcursor s.serviceInterrupt_mem hpending hresolved htrace

/-! ### An engine step over other values of the pieces no rule reads -/

/-- `s` with other values of `MQ`, the queue, the resolved count and the trace. -/
def State.withUnread (s : State) (q : Word) (ids : List Config.IntId) (k : Nat) (es : List TraceEvent) : State :=
  { s with mq := q, pending := ids, resolved := k, trace := es }

/-- From `s`, whatever the pieces no rule reads hold, `f` answers one fault, or one next state apart from these pieces:
the new `MQ`, if there is one, and the appended events are the same too. -/
def IgnoresUnread (f : State → Host.Outcome State Fault Refusal) (s : State) : Prop :=
  (∃ r, ∀ q ids k es, f (s.withUnread q ids k es) = .fault r) ∨
  ∃ (t : State) (q' : Option Word) (es' : List TraceEvent), ∀ q ids k es,
    f (s.withUnread q ids k es) = .next (t.withUnread (q'.getD q) ids k (es ++ es'))

theorem exec_ignoresUnread (i : Instr) (s : State) : IgnoresUnread (exec i) s := by
  cases i with
  | sub x => exact .inr ⟨(effectSub x s).complete .SUB, none, [.exec .SUB], fun _ _ _ _ => rfl⟩
  | load x => exact .inr ⟨(effectLoad x s).complete .LOAD, none, [.exec .LOAD], fun _ _ _ _ => rfl⟩
  | mul x =>
    exact .inr ⟨(effectMul x s).complete .MUL, aluMulHigh s.ac (s.operand x), [.exec .MUL], fun _ _ _ _ => rfl⟩
  | div x =>
    by_cases h : s.operand x = 0#13
    · exact .inr ⟨s.raiseDivideByZero, none, [.divByZero],
        fun q ids k es => exec_div_of_operand_eq_zero (s := s.withUnread q ids k es) h⟩
    · have hm : (s.memRead x).toNat ≠ 0 := fun hz => h (BitVec.eq_of_toNat_eq hz)
      exact .inr ⟨(effectDiv x s).complete .DIV, aluRemainder s.ac (s.operand x), [.exec .DIV],
        fun q ids k es => exec_div_of_operand_ne_zero (s := s.withUnread q ids k es) hm⟩
  | ldmq x => exact .inr ⟨(effectLdmq x s).complete .LDMQ, s.operand x, [.exec .LDMQ], fun _ _ _ _ => rfl⟩
  | halt x => exact .inr ⟨(s.emit .halt).enterPhase .halted, none, [.halt], fun _ _ _ _ => rfl⟩
  | add x => exact .inr ⟨(effectAdd x s).complete .ADD, none, [.exec .ADD], fun _ _ _ _ => rfl⟩
  | st x =>
    by_cases h : x.toNat < Config.memSize
    · exact .inr ⟨(s.setCell x.toNat s.ac).complete .ST, none, [.exec .ST], fun _ _ _ _ => exec_st_of_lt h⟩
    · exact .inl ⟨.storeRange x, fun _ _ _ _ => exec_st_of_ge (Nat.not_lt.mp h)⟩

theorem executeStep_ignoresUnread (s : State) : IgnoresUnread executeStep s := by
  obtain ⟨i, hi, -⟩ := executeStep_eq_exec s
  have hexec : ∀ q ids k es, executeStep (s.withUnread q ids k es) = exec i (s.withUnread q ids k es) := by
    intro q ids k es
    rw [executeStep, show decodeFields (s.withUnread q ids k es).ir (s.withUnread q ids k es).mar = .instr i from hi]
  simpa only [IgnoresUnread, hexec] using exec_ignoresUnread i s

theorem engineStep_ignoresUnread (s : State) : IgnoresUnread engineStep s := by
  have hphase : ∀ q ids k es, (s.withUnread q ids k es).phase = s.phase := fun _ _ _ _ => rfl
  simp only [IgnoresUnread, engineStep, hphase]
  cases s.phase with
  | idle => exact .inr ⟨idleStep s, none, [.start], fun _ _ _ _ => rfl⟩
  | fetch => exact .inr ⟨fetchStep s, none, [.fetch], fun _ _ _ _ => rfl⟩
  | decode => exact .inr ⟨decodeStep s, none, [.decode], fun _ _ _ _ => rfl⟩
  | execute => exact executeStep_ignoresUnread s
  | halted => exact .inr ⟨s, none, [], fun _ _ _ _ => by rw [List.append_nil]; rfl⟩

/-! ### A tick over other values of these pieces -/

theorem step_eq_engineStep {s : State} (h : ¬(s.phase = .fetch ∧ s.pending ≠ [])) : step s = engineStep s := by
  rw [step_eq_coarseTick, coarseTick, if_neg (mt s.serviceDue_iff.mp h)]

/-- Two observations `g` and `g'` see the same tick over `s` and over `s` with other unread pieces when they see the
same service, and the same next state wherever the engine step treats those pieces as `IgnoresUnread` says. -/
theorem mapNext_step_withUnread {s : State} {q : Word} {ids : List Config.IntId} {k : Nat} {es : List TraceEvent}
    {g g' : State → State} (hids : ids = [] ↔ s.pending = [])
    (hservice : s.pending ≠ [] → g (s.withUnread q ids k es).serviceInterrupt = g' s.serviceInterrupt)
    (hengine : ∀ (t : State) (q' : Option Word) (es' : List TraceEvent),
      g (t.withUnread (q'.getD q) ids k (es ++ es')) =
        g' (t.withUnread (q'.getD s.mq) s.pending s.resolved (s.trace ++ es'))) :
    mapNext g (step (s.withUnread q ids k es)) = mapNext g' (step s) := by
  by_cases hdue : s.phase = .fetch ∧ s.pending ≠ []
  · have hdue' : (s.withUnread q ids k es).pending ≠ [] := mt hids.mp hdue.2
    rw [step_service hdue.1 hdue.2, step_service (s := s.withUnread q ids k es) hdue.1 hdue']
    exact congrArg Host.Outcome.next (hservice hdue.2)
  · have hdue' : ¬((s.withUnread q ids k es).phase = .fetch ∧ (s.withUnread q ids k es).pending ≠ []) :=
      fun h => hdue ⟨h.1, mt hids.mpr h.2⟩
    rw [step_eq_engineStep hdue, step_eq_engineStep hdue']
    have hself : s = s.withUnread s.mq s.pending s.resolved s.trace := rfl
    rcases engineStep_ignoresUnread s with ⟨r, h⟩ | ⟨t, q', es', h⟩
    · rw [h, hself, h]
      rfl
    · rw [h, hself, h]
      exact congrArg Host.Outcome.next (hengine t q' es')

/-- Settles O39: the service does not read `MQ`, and the engine step replaces it or leaves it. -/
theorem nothingReadsMq : Obligations.NothingReadsMq := by
  intro s v
  refine mapNext_step_withUnread (q := v) (k := s.resolved) (es := s.trace) Iff.rfl (fun hq => ?_) fun _ _ _ => rfl
  obtain ⟨id, rest, h⟩ := List.exists_cons_of_ne_nil hq
  rw [State.serviceInterrupt_eq h, State.serviceInterrupt_eq (s := s.withUnread v s.pending s.resolved s.trace) h]
  rfl

/-- Settles O40: a service counts on from the resolved count and appends to the trace, and reads neither. -/
theorem nothingReadsTraceOrResolvedCount : Obligations.NothingReadsTraceOrResolvedCount := by
  intro s k es
  refine mapNext_step_withUnread (q := s.mq) (k := k) (es := es) Iff.rfl (fun hq => ?_) fun _ _ _ => rfl
  obtain ⟨id, rest, h⟩ := List.exists_cons_of_ne_nil hq
  rw [State.serviceInterrupt_eq h, State.serviceInterrupt_eq (s := s.withUnread s.mq s.pending k es) h]
  rfl

/-- Settles O41: a service drops the head, whatever it is called, and names it in the trace alone. -/
theorem interruptIdentifiersAreOpaque : Obligations.InterruptIdentifiersAreOpaque := by
  intro s f
  refine mapNext_step_withUnread (q := s.mq) (k := s.resolved) (es := s.trace) List.map_eq_nil_iff (fun hq => ?_)
    fun _ _ _ => rfl
  obtain ⟨id, rest, h⟩ := List.exists_cons_of_ne_nil hq
  have hmap : s.pending.map f = f id :: rest.map f := by rw [h, List.map_cons]
  rw [State.serviceInterrupt_eq h,
    State.serviceInterrupt_eq (s := s.withUnread s.mq (s.pending.map f) s.resolved s.trace) hmap]
  rfl

end Sys2Proof.Machine
end

section
/-! PROOFS. Interrupts (60_exceptions.md R116, R120 to R123): a trigger, the effects of one service, a whole queue
drained, and that no run loses an interrupt. -/

namespace Sys2Proof.Machine

/-- Settles O42: the queue is what `State.trigger` replaces. -/
theorem triggerAppendsAtTheTail : Obligations.TriggerAppendsAtTheTail := fun s id =>
  ⟨s.trigger id, rfl, s.trigger_pending id, rfl⟩

/-! ### One service -/

/-- The saved `PC` keeps its value (D9). -/
theorem toNat_setWidth_pc (p : Addr) : (p.setWidth 13 : Word).toNat = p.toNat := by
  simp only [BitVec.toNat_setWidth]
  omega

/-- R120 step 4, R121, R122: what the service adds, by the field of the service word. -/
theorem State.serviceOperand_toNat (s : State) :
    s.serviceOperand.toNat =
      if s.serviceWord.toNat % 1024 = 1001 then s.pc.toNat
      else if s.serviceWord.toNat % 1024 = 1003 then ((s.memCell 1003).getD 0#13).toNat
      else ((s.memCell (s.serviceWord.toNat % 1024)).getD 0#13).toNat := by
  simp only [State.serviceOperand, State.memRead, addrField_toNat]
  split
  · exact toNat_setWidth_pc s.pc
  · split <;> rfl

theorem State.nextCounter_toNat (s : State) :
    s.nextCounter.toNat = (((s.memCell 1003).getD 0#13).toNat + 1) % 8192 :=
  BitVec.toNat_ofNat _ _

/-- Settles O44: the service's cells, and its registers, queue and trace. -/
theorem serviceEffectsAndFrame : Obligations.ServiceEffectsAndFrame := by
  rintro s id rest w c m hp hq hw rfl rfl
  obtain ⟨hpc, hmar, hmbr, hir, hmq, hphase, hcursor, hpending, hresolved, hac, htrace⟩ :=
    State.serviceInterrupt_registers hq
  have hcell := s.serviceInterrupt_memCell
  refine ⟨s.serviceInterrupt, step_service hp (by simp [hq]), ?ac, ?saved, ?counter, ?others, hpending, hresolved, hpc,
    hmar, hmbr, hir, hmq, hphase, hcursor, State.serviceInterrupt_wf⟩
  case ac =>
    rw [hac, BitVec.toNat_ofNat, State.serviceOperand_toNat, show s.serviceWord = w from hw.symm]
  case saved => exact ⟨s.pc.setWidth 13, by simp [hcell], toNat_setWidth_pc s.pc⟩
  case counter => exact ⟨s.nextCounter, by simp [hcell], s.nextCounter_toNat, htrace⟩
  case others => exact fun a h1 h3 => by rw [hcell, if_neg h3, if_neg h1]

/-! ### A whole queue -/

/-- R123, one service with field 1003: `AC` gains the counter and the counter 1, both modulo 8192. -/
theorem step_service_of_counter_field {s : State} {id : Config.IntId} {rest : List Config.IntId} (hp : s.phase = .fetch)
    (hq : s.pending = id :: rest) (hw : ((s.memCell 1002).getD 0b1101111101011#13).toNat % 1024 = 1003) :
    ∃ t : State, step s = .next t ∧
      t.ac.toNat = (s.ac.toNat + ((s.memCell 1003).getD 0#13).toNat) % 8192 ∧
      ((t.memCell 1003).getD 0#13).toNat = (((s.memCell 1003).getD 0#13).toNat + 1) % 8192 ∧
      ((t.memCell 1001).getD 0#13).toNat = s.pc.toNat ∧
      (∀ a, a ≠ 1001 → a ≠ 1003 → t.memCell a = s.memCell a) ∧ t.pending = rest ∧ t.resolved = s.resolved + 1 ∧
      t.pc = s.pc ∧ t.mar = s.mar ∧ t.mbr = s.mbr ∧ t.ir = s.ir ∧ t.mq = s.mq ∧ t.phase = s.phase := by
  obtain ⟨t, hs, hac, ⟨v, hv, hvpc⟩, ⟨u, hu, huc, -⟩, hcells, hpending, hresolved, hpc, hmar, hmbr, hir, hmq, hphase,
    -⟩ := serviceEffectsAndFrame s id rest _ _ _ hp hq rfl rfl rfl
  refine ⟨t, hs, ?_, ?_, ?_, hcells, hpending, hresolved, hpc, hmar, hmbr, hir, hmq, hphase⟩
  · rw [hac, hw]
    rfl
  · rw [hu]
    exact huc
  · rw [hv]
    exact hvpc

/-- One service more: the counters `c, …, c + n` are `c` and then the `n` from `c + 1` on, all read modulo 8192. -/
theorem drained_sum_succ (a c n : Nat) :
    ((a + c) % 8192 + n * ((c + 1) % 8192) + n * (n - 1) / 2) % 8192 =
      (a + (n + 1) * c + (n + 1) * (n + 1 - 1) / 2) % 8192 := by
  have hsum : a + (n + 1) * c + (n + 1) * (n + 1 - 1) / 2 = a + c + n * (c + 1) + n * (n - 1) / 2 := by
    rw [Nat.triangle_succ]
    ring
  rw [hsum]
  exact ((Nat.mod_modEq (a + c) 8192).add ((Nat.mod_modEq (c + 1) 8192).mul_left n)).add_right _

/-- Settles O46: by induction over the queue, one service and then the rest from the counter it leaves. -/
theorem drainingTheQueueInClosedForm : Obligations.DrainingTheQueueInClosedForm := by
  intro s n c hp hn hw hc
  induction n generalizing s c with
  | zero =>
    refine ⟨s, rfl, List.eq_nil_of_length_eq_zero hn, rfl, ?_, ?_, absurd rfl, fun _ _ _ => rfl, rfl, rfl, rfl, rfl,
      rfl, hp⟩
    · simpa using (Nat.mod_eq_of_lt s.ac.isLt).symm
    · rw [← hc]
      exact (Nat.mod_eq_of_lt (hc ▸ BitVec.isLt _)).symm
  | succ n ih =>
    obtain ⟨id, rest, hq⟩ := List.exists_cons_of_length_eq_add_one hn
    obtain ⟨t, hs, hac, hcounter, hsaved, hcells, hpending, hresolved, hpc, hmar, hmbr, hir, hmq, hphase⟩ :=
      step_service_of_counter_field hp hq hw
    rw [← hc] at hac hcounter
    have hlen : t.pending.length = n := by simpa [hpending, hq] using hn
    have hw' : ((t.memCell 1002).getD 0b1101111101011#13).toNat % 1024 = 1003 := by
      rw [hcells 1002 (by decide) (by decide)]
      exact hw
    obtain ⟨u, hu, hempty, hresolved', hac', hcounter', hsaved', hcells', hpc', hmar', hmbr', hir', hmq', hphase'⟩ :=
      ih t _ (hphase.trans hp) hlen hw' hcounter.symm
    refine ⟨u, (ticks_succ_of_next hs n).trans hu, hempty, by omega, ?ac, ?counter, fun _ => ?saved, ?cells,
      hpc'.trans hpc, hmar'.trans hmar, hmbr'.trans hmbr, hir'.trans hir, hmq'.trans hmq, hphase'⟩
    case ac => rw [hac', hac, drained_sum_succ]
    case counter => omega
    case saved =>
      by_cases h0 : n = 0
      · subst h0
        cases hu
        exact hsaved
      · rw [hsaved' h0, hpc]
    case cells => exact fun a h1 h3 => (hcells' a h1 h3).trans (hcells a h1 h3)

/-! ### No run loses an interrupt -/

/-- R22, R23: a service moves one identifier from the queue to the count, and no other tick touches either. -/
theorem step_resolved_add_pending {s t : State} (hs : step s = .next t) :
    t.resolved + t.pending.length = s.resolved + s.pending.length := by
  by_cases hdue : s.phase = .fetch ∧ s.pending ≠ []
  · obtain ⟨id, rest, hq⟩ := List.exists_cons_of_ne_nil hdue.2
    obtain ⟨-, -, -, -, -, -, -, hpending, hresolved, -⟩ := State.serviceInterrupt_registers hq
    cases (step_service hdue.1 hdue.2).symm.trans hs
    rw [hpending, hresolved, hq, List.length_cons]
    omega
  · obtain ⟨hpending, hresolved⟩ := step_pending_resolved hdue hs
    rw [hpending, hresolved]

/-- A run of one tick more that answers a state: its first tick answers one too. -/
theorem exists_step_of_ticks_succ {n : Nat} {s t : State} (h : ticks (n + 1) s = .next t) :
    ∃ u, step s = .next u ∧ ticks n u = .next t := by
  cases hs : step s with
  | next u => exact ⟨u, rfl, (ticks_succ_of_next hs n).symm.trans h⟩
  | fault r => simp [ticks, runWith, hs] at h
  | refused r => simp [ticks, runWith, hs] at h

/-- Settles O47: by induction over the ticks. -/
theorem resolvedPlusPendingIsConstant : Obligations.ResolvedPlusPendingIsConstant := by
  intro n
  induction n with
  | zero =>
    intro s t h
    cases h
    rfl
  | succ n ih =>
    intro s t h
    obtain ⟨u, hs, hu⟩ := exists_step_of_ticks_succ h
    exact (ih u t hu).trans (step_resolved_add_pending hs)

end Sys2Proof.Machine
end

section
/-! PROOFS. The environment (60_exceptions.md R114, 70_reset_and_hazards.md R141, R145): a fault lasts until `Reset`,
and how a run under the driver ends. -/

namespace Sys2Proof.Machine

/-! ### After a fault -/

theorem Session.apply_tick_of_stopped {σ : Session} {r : Fault} (h : σ.stopped = some r) : σ.apply .tick = σ := by
  simp only [Session.apply, h]

/-- R114: only `Reset` clears a fault. -/
theorem Session.apply_stopped {σ : Session} {r : Fault} (h : σ.stopped = some r) {e : Event} (he : e ≠ .reset) :
    (σ.apply e).stopped = some r := by
  cases e with
  | tick => rw [Session.apply_tick_of_stopped h, h]
  | reset => exact absurd rfl he
  | trigger _ | load _ | editRegister _ => exact h

theorem Session.run_stopped {σ : Session} {r : Fault} {es : List Event} (h : σ.stopped = some r)
    (hes : ∀ e ∈ es, e ≠ .reset) : (σ.run es).stopped = some r := by
  induction es generalizing σ with
  | nil => exact h
  | cons e es ih =>
    obtain ⟨he, hes⟩ := List.forall_mem_cons.mp hes
    exact ih (Session.apply_stopped h he) hes

/-- D6: the fault is remembered beside the core, which the tick leaves as it was. -/
theorem Session.apply_tick_of_storeOutOfRange {σ : Session} (h : σ.stopped = none) (hstore : σ.core.storeOutOfRange) :
    σ.apply .tick = ⟨σ.core, some (.storeRange σ.core.mar)⟩ := by
  simp only [Session.apply, h, step_of_storeOutOfRange hstore]

/-- Settles O51: one lemma a clause; `Reset` is by definition the reset state over the memory. -/
theorem faultLastsUntilReset : Obligations.FaultLastsUntilReset :=
  ⟨fun _ _ => Session.apply_tick_of_stopped, fun _ _ _ => Session.run_stopped, fun _ => rfl,
    fun _ => Session.apply_tick_of_storeOutOfRange⟩

/-! ### The driver -/

/-- What an end of a run from `s` under the cap says of the state left: which ticks lead to it (R98, R115, R145). -/
def EndsAs (cap : Nat) (s : State) : RunEnd × State → Prop
  | (.limitReached, u) => ∃ t : State, ticks cap s = .next t ∧ t.phase ≠ .halted ∧ u = t.emit .limitReached
  | (.halted, u) => ∃ k, k ≤ cap ∧ ticks k s = .next u ∧ u.phase = .halted
  | (.faulted r, u) => ∃ k, k < cap ∧ ticks k s = .next u ∧ step u = .fault r
  | (.refused _, _) => False

/-- A run under the driver that starts with a tick ends as the rest of it does. -/
theorem EndsAs.of_step {cap : Nat} {s t : State} (hs : step s = .next t) {e : RunEnd × State} (h : EndsAs cap t e) :
    EndsAs (cap + 1) s e := by
  obtain ⟨_ | _ | r | r, u⟩ := e
  · obtain ⟨k, hk, hu, hhalted⟩ := h
    exact ⟨k + 1, Nat.succ_le_succ hk, (ticks_succ_of_next hs k).trans hu, hhalted⟩
  · obtain ⟨v, hv, hhalted⟩ := h
    exact ⟨v, (ticks_succ_of_next hs cap).trans hv, hhalted⟩
  · obtain ⟨k, hk, hu, hfault⟩ := h
    exact ⟨k + 1, Nat.succ_lt_succ hk, (ticks_succ_of_next hs k).trans hu, hfault⟩
  · exact h

theorem drive_of_halted {s : State} (h : s.phase = .halted) (cap : Nat) : drive cap s = (.halted, s) := by
  cases cap <;> simp [drive, h]

theorem drive_endsAs (cap : Nat) (s : State) : EndsAs cap s (drive cap s) := by
  induction cap generalizing s with
  | zero =>
    by_cases h : s.phase = .halted
    · rw [drive_of_halted h]
      exact ⟨0, le_rfl, rfl, h⟩
    · rw [drive, if_neg h]
      exact ⟨s, rfl, h, rfl⟩
  | succ cap ih =>
    by_cases h : s.phase = .halted
    · rw [drive_of_halted h]
      exact ⟨0, Nat.zero_le _, rfl, h⟩
    · rw [drive, if_neg h]
      cases hs : step s with
      | next t => exact (ih t).of_step hs
      | fault r => exact ⟨0, Nat.succ_pos cap, rfl, hs⟩
      | refused r => exact step_ne_refused s r hs

/-- Settles O55: each end by what it says of the ticks. -/
theorem driverStopsWithinTheCap : Obligations.DriverStopsWithinTheCap := by
  intro cap s
  have h := drive_endsAs cap s
  generalize drive cap s = d at h ⊢
  obtain ⟨e, u⟩ := d
  exact ⟨by rintro rfl; exact h, by rintro rfl; exact h, by rintro r rfl; exact h, by rintro r rfl; exact h⟩

end Sys2Proof.Machine
end

section
/-! PROOFS. `Load` and the reserved contents (70_reset_and_hazards.md R142, 20_memory.md R32, R47): the cells they
leave. -/

namespace Sys2Proof.Machine

/-! ### `Load` -/

/-- The content an image gives an address: that of its last pair for it (log entry 20). -/
def Image.lastFor (image : Image) (a : Nat) : Option Word := (image.reverse.find? fun p => p.1 == a).map (·.2)

theorem Image.lastFor_cons (p : Nat × Word) (image : Image) (a : Nat) :
    Image.lastFor (p :: image) a = (Image.lastFor image a).or (if a = p.1 then some p.2 else none) := by
  simp only [Image.lastFor, List.reverse_cons, List.find?_append, Option.map_or]
  by_cases h : a = p.1
  · simp [h]
  · simp [h, Ne.symm h]

/-- A cell that an image gives no content is as it was. -/
theorem Memory.cell_writeAll (m : Memory) (image : Image) (a : Nat) :
    Memory.cell (m.writeAll image) a = (Image.lastFor image a).or (Memory.cell m a) := by
  induction image generalizing m with
  | nil => rfl
  | cons p image ih =>
    have hcons : m.writeAll (p :: image) = Memory.writeAll (Memory.write m p.1 p.2) image := rfl
    rw [hcons, ih, Memory.cell_write, Image.lastFor_cons, Option.or_assoc]
    split <;> simp

/-- R142: the program space is emptied, the reserved cells keep their state. -/
theorem Memory.cell_clearProgram (m : Memory) (a : Nat) :
    Memory.cell m.clearProgram a = if a < Config.progSpace then none else Memory.cell m a := by
  induction m with
  | nil => exact (ite_self none).symm
  | cons p rest ih =>
    obtain ⟨b, w⟩ := p
    rw [Memory.clearProgram] at ih
    rw [Memory.clearProgram, List.filter_cons]
    by_cases hba : b = a
    · subst hba
      by_cases hb : Config.progSpace ≤ b
      · simp [Memory.cell, hb]
      · simp [ih, hb, Nat.lt_of_not_le hb]
    · by_cases hb : Config.progSpace ≤ b <;> simp [Memory.cell, ih, hb, hba]

/-- R57, R142: an image is loaded when every address is in the program space. -/
theorem State.load_of_forall_le {s : State} {image : Image} (h : ∀ p ∈ image, p.1 ≤ 999) :
    s.load image = some { s with mem := (s.mem.clearProgram).writeAll image } := by
  have hok : image.all imageEntryOk = true := by
    simpa [imageEntryOk, Nat.lt_succ_iff] using h
  rw [State.load, if_pos hok]

theorem State.load_of_exists_gt {s : State} {image : Image} (h : ∃ p ∈ image, 999 < p.1) : s.load image = none := by
  have hbad : ¬ image.all imageEntryOk = true := by
    simpa [imageEntryOk, Nat.succ_le_iff] using h
  rw [State.load, if_neg hbad]

/-- An image of the program space gives no other cell a content. -/
theorem Image.lastFor_eq_none {image : Image} (h : ∀ p ∈ image, p.1 ≤ 999) {a : Nat} (ha : 1000 ≤ a) :
    Image.lastFor image a = none := by
  simp only [Image.lastFor, Option.map_eq_none_iff, List.find?_eq_none, List.mem_reverse, beq_iff_eq]
  exact fun p hp hpa => by have := h p hp; omega

/-- The cells of a loaded state. -/
theorem State.memCell_load {s : State} {image : Image} {a : Nat} (ha : a < Config.memSize) :
    State.memCell { s with mem := (s.mem.clearProgram).writeAll image } a =
      (Image.lastFor image a).or (if a < Config.progSpace then none else s.memCell a) := by
  rw [State.memCell_of_lt _ ha, State.memCell_of_lt _ ha, Memory.cell_writeAll, Memory.cell_clearProgram]

/-- Settles O52: the cells by the image's last pairs over the cleared memory. -/
theorem loadReplacesTheProgramSpace : Obligations.LoadReplacesTheProgramSpace := by
  refine fun s image => ⟨fun h => ?loaded, fun h => ?refused⟩
  case loaded =>
    refine ⟨_, State.load_of_forall_le h, fun a ha => ?kept, fun a ha => ?program, rfl, fun hmem => ?canonical⟩
    case kept =>
      by_cases hlt : a < Config.memSize
      · rw [State.memCell_load hlt, Image.lastFor_eq_none h ha, Option.none_or,
          if_neg (show ¬ a < Config.progSpace from Nat.not_lt.mpr ha)]
      · rw [State.memCell_of_ge _ (Nat.not_lt.mp hlt), State.memCell_of_ge _ (Nat.not_lt.mp hlt)]
    case program =>
      have hprog : a < Config.progSpace := Nat.lt_succ_of_le ha
      rw [State.memCell_load (hprog.trans (by decide)), if_pos hprog, Option.or_none]
      rfl
    case canonical =>
      exact Memory.writeAll_wf (Memory.clearProgram_wf hmem) image fun p hp =>
        (Nat.lt_succ_of_le (h p hp)).trans (by decide)
  case refused =>
    have hnone := State.load_of_exists_gt (s := s) h
    refine ⟨hnone, fun r => ?_⟩
    simp only [Session.apply, hnone, Option.getD_none]

/-! ### The reserved contents -/

/-- One content: it goes into its cell where that is one of 1001 to 1003 and still empty (R142, C4). -/
def State.loadReservedOne (s : State) (p : Nat × Word) : State :=
  if Config.addrSavedPc ≤ p.1 ∧ p.1 < Config.memSize ∧ s.memCell p.1 = none then s.setCell p.1 p.2 else s

theorem State.loadReserved_cons (s : State) (p : Nat × Word) (contents : Image) :
    s.loadReserved (p :: contents) = (s.loadReservedOne p).loadReserved contents := rfl

theorem State.loadReservedOne_eq (s : State) (p : Nat × Word) :
    s.loadReservedOne p = { s with mem := (s.loadReservedOne p).mem } := by
  unfold State.loadReservedOne
  split <;> rfl

theorem State.loadReserved_eq (s : State) (contents : Image) :
    s.loadReserved contents = { s with mem := (s.loadReserved contents).mem } := by
  induction contents generalizing s with
  | nil => rfl
  | cons p contents ih =>
    have hframe := congrArg (fun t : State => { t with mem := ((s.loadReservedOne p).loadReserved contents).mem })
      (s.loadReservedOne_eq p)
    exact (ih (s.loadReservedOne p)).trans hframe

theorem State.loadReservedOne_memCell (s : State) (p : Nat × Word) (a : Nat) :
    (s.loadReservedOne p).memCell a =
      if 1001 ≤ a ∧ a < 1004 then (s.memCell a).or (if p.1 = a then some p.2 else none) else s.memCell a := by
  obtain ⟨b, v⟩ := p
  by_cases hba : b = a
  · subst hba
    by_cases hin : 1001 ≤ b ∧ b < 1004
    · cases hb : s.memCell b <;>
        simp [State.loadReservedOne, Config.addrSavedPc, Config.memSize, State.memCell_setCell, hin, hb]
    · have hno : ¬(Config.addrSavedPc ≤ b ∧ b < Config.memSize ∧ s.memCell b = none) := fun h => hin ⟨h.1, h.2.1⟩
      rw [State.loadReservedOne, if_neg hno, if_neg hin]
  · have hother : (s.loadReservedOne (b, v)).memCell a = s.memCell a := by
      unfold State.loadReservedOne
      split
      · exact s.memCell_setCell_other (Ne.symm hba) v
      · rfl
    simp [hother, hba]

/-- R142, C4: a cell of 1001 to 1003 that is empty takes the first content named for it, and no other cell changes. -/
theorem State.loadReserved_memCell (s : State) (contents : Image) (a : Nat) :
    (s.loadReserved contents).memCell a =
      if 1001 ≤ a ∧ a < 1004 then (s.memCell a).or ((contents.find? fun p => p.1 == a).map (·.2)) else s.memCell a := by
  induction contents generalizing s with
  | nil => simp [State.loadReserved]
  | cons p contents ih =>
    rw [State.loadReserved_cons, ih, State.loadReservedOne_memCell]
    split
    · rw [Option.or_assoc]
      by_cases hp : p.1 = a <;> simp [hp]
    · rfl

/-- Settles O53: a present cell wins over the contents, and an empty one takes the first that names it. -/
theorem loadingKeepsReservedCellsThatHoldValues : Obligations.LoadingKeepsReservedCellsThatHoldValues := by
  refine fun s contents => ⟨fun a hne => ?present, fun a ha => ?below, fun a v h1 h2 hempty hfind => ?taken,
    s.loadReserved_eq contents⟩
  case present =>
    obtain ⟨v, hv⟩ := Option.ne_none_iff_exists'.mp hne
    rw [State.loadReserved_memCell, hv]
    exact ite_self _
  case below => rw [State.loadReserved_memCell, if_neg fun h => Nat.not_lt.mpr h.1 ha]
  case taken => rw [State.loadReserved_memCell, if_pos ⟨h1, h2⟩, hempty, hfind, Option.none_or, Option.map_some]

end Sys2Proof.Machine
end

section
/-! PROOFS. The CSV text (30_encoding.md R57): its lines and headers, what a line says, and the image of a text. -/

namespace Sys2Proof.Machine

/-! ### Pieces between separators -/

theorem splitText_ne_nil (sep : Char) (cs : List Char) : splitText sep cs ≠ [] := by
  cases cs with
  | nil => simp [splitText]
  | cons c cs =>
    rw [splitText]
    split
    · simp
    · split <;> simp

/-- A separator ends the first piece. -/
theorem splitText_sep_cons (sep : Char) (cs : List Char) : splitText sep (sep :: cs) = [] :: splitText sep cs := by
  simp [splitText]

/-- Another character goes to the front of the first piece. -/
theorem splitText_cons_of_ne {sep c : Char} (h : c ≠ sep) (cs : List Char) :
    ∃ l ls, splitText sep cs = l :: ls ∧ splitText sep (c :: cs) = (c :: l) :: ls := by
  obtain ⟨l, ls, hsplit⟩ := List.exists_cons_of_ne_nil (splitText_ne_nil sep cs)
  exact ⟨l, ls, hsplit, by simp [splitText, h, hsplit]⟩

theorem intercalate_splitText (sep : Char) (text : List Char) : [sep].intercalate (splitText sep text) = text := by
  induction text with
  | nil => rfl
  | cons c cs ih =>
    by_cases h : c = sep
    · subst h
      obtain ⟨l, ls, hsplit⟩ := List.exists_cons_of_ne_nil (splitText_ne_nil c cs)
      rw [splitText_sep_cons, hsplit, List.intercalate_cons_cons, ← hsplit, ih]
      rfl
    · obtain ⟨l, ls, hsplit, hcons⟩ := splitText_cons_of_ne h cs
      rw [hcons]
      rw [hsplit] at ih
      cases ls with
      | nil => simpa using ih
      | cons m ms => simpa [List.intercalate_cons_cons] using ih

theorem not_mem_of_mem_splitText {sep : Char} {text piece : List Char} (h : piece ∈ splitText sep text) :
    sep ∉ piece := by
  induction text generalizing piece with
  | nil =>
    obtain rfl := List.mem_singleton.mp h
    exact List.not_mem_nil
  | cons c cs ih =>
    by_cases hc : c = sep
    · subst hc
      rw [splitText_sep_cons] at h
      rcases List.mem_cons.mp h with rfl | h
      · exact List.not_mem_nil
      · exact ih h
    · obtain ⟨l, ls, hsplit, hcons⟩ := splitText_cons_of_ne hc cs
      rw [hsplit] at ih
      rw [hcons] at h
      rcases List.mem_cons.mp h with rfl | h
      · simpa [Ne.symm hc] using ih List.mem_cons_self
      · exact ih (List.mem_cons_of_mem l h)

/-- A text without the separator is its own one piece. -/
theorem splitText_of_not_mem {sep : Char} {text : List Char} (h : sep ∉ text) : splitText sep text = [text] := by
  induction text with
  | nil => rfl
  | cons c cs ih =>
    obtain ⟨hc, hcs⟩ := not_or.mp (mt List.mem_cons.mpr h)
    obtain ⟨l, ls, hsplit, hcons⟩ := splitText_cons_of_ne (Ne.symm hc) cs
    cases (ih hcs).symm.trans hsplit
    exact hcons

theorem splitText_append_sep {sep : Char} {a : List Char} (h : sep ∉ a) (v : List Char) :
    splitText sep (a ++ sep :: v) = a :: splitText sep v := by
  induction a with
  | nil => exact splitText_sep_cons sep v
  | cons c cs ih =>
    obtain ⟨hc, hcs⟩ := not_or.mp (mt List.mem_cons.mpr h)
    obtain ⟨l, ls, hsplit, hcons⟩ := splitText_cons_of_ne (Ne.symm hc) (cs ++ sep :: v)
    cases (ih hcs).symm.trans hsplit
    exact hcons

/-- Two pieces: one separator, and none in either piece. -/
theorem splitText_eq_pair_iff {sep : Char} {text a v : List Char} :
    splitText sep text = [a, v] ↔ text = a ++ sep :: v ∧ sep ∉ a ∧ sep ∉ v := by
  constructor
  · intro h
    refine ⟨?_, ?_, ?_⟩
    · rw [← intercalate_splitText sep text, h]
      simp [List.intercalate_cons_cons]
    · exact not_mem_of_mem_splitText (h ▸ List.mem_cons_self)
    · exact not_mem_of_mem_splitText (h ▸ List.mem_cons_of_mem a List.mem_cons_self)
  · rintro ⟨rfl, ha, hv⟩
    rw [splitText_append_sep ha, splitText_of_not_mem hv]

/-! ### Headers -/

theorem containsText_eq_true_iff (word cs : List Char) : containsText word cs = true ↔ word <:+: cs := by
  induction cs with
  | nil => simp [containsText]
  | cons c cs ih => simp [containsText, ih, List.infix_cons_iff]

/-- Settles O58: the pieces by induction over the text, and a header by what containing a word is. -/
theorem csvTextIsItsLinesAndHeadersNameBothColumns : Obligations.CsvTextIsItsLinesAndHeadersNameBothColumns := by
  refine ⟨fun sep text => ⟨intercalate_splitText sep text, fun _ => not_mem_of_mem_splitText⟩, fun line => ?_⟩
  rw [← containsText_eq_true_iff, ← containsText_eq_true_iff, ← Bool.and_eq_true]
  rfl

/-! ### What a line says -/

/-- The value of decimal digits, most significant first. -/
def digitsValue (cs : List Char) : Nat := Nat.ofDigits 10 (cs.reverse.map fun c => c.toNat - '0'.toNat)

theorem foldl_digits_eq_digitsValue (cs : List Char) :
    cs.foldl (fun n c => 10 * n + (c.toNat - '0'.toNat)) 0 = digitsValue cs := by
  simp [digitsValue, Nat.ofDigits_eq_foldr, List.foldl_map, Nat.add_comm]

theorem decimalValue_eq_some_iff (cs : List Char) (n : Nat) :
    decimalValue cs = some n ↔ cs ≠ [] ∧ (∀ c ∈ cs, c.isDigit = true) ∧ n = digitsValue cs := by
  rw [decimalValue, foldl_digits_eq_digitsValue, eq_comm (a := n), Option.ite_none_right_eq_some]
  simp [and_assoc]

/-- The checks of an accepted line, in the order in which they are made. -/
theorem parseLine_eq_ok_iff (line : List Char) (n : Nat) (w : Word) :
    parseLine line = .ok (n, w) ↔
      ∃ a v, splitText ',' line = [a, v] ∧ decimalValue a = some n ∧ n < Config.progSpace ∧
        (v ≠ [] ∧ ∀ c ∈ v, isBit c = true) ∧ v.length ≤ 13 ∧ BitVec.ofNat 13 (binaryToDecimal v) = w := by
  unfold parseLine
  constructor
  · intro h
    split at h
    next a v hsplit =>
      split at h
      next => cases h
      next m hm =>
        split at h
        next => cases h
        next hrange =>
          split at h
          next => cases h
          next hbits =>
            split at h
            next => cases h
            next hlen =>
              cases h
              exact ⟨a, v, hsplit, hm, Nat.lt_of_not_le hrange, by simpa using hbits, Nat.le_of_not_lt hlen, rfl⟩
    next => cases h
  · rintro ⟨a, v, hsplit, hn, hrange, ⟨hne, hbits⟩, hlen, rfl⟩
    have hall : (v.isEmpty || !v.all isBit) = false := by simpa [hne] using hbits
    simp [hsplit, hn, Nat.not_le.mpr hrange, hall, Nat.not_lt.mpr hlen]

theorem isBit_iff (c : Char) : isBit c = true ↔ c = '0' ∨ c = '1' := by simp [isBit]

/-- Up to thirteen digits give the word of their value, padded or not. -/
theorem ofNat_binaryToDecimal_eq_iff {v : List Char} (h : v.length ≤ 13) (w : Word) :
    BitVec.ofNat 13 (binaryToDecimal v) = w ↔
      w.toNat = binaryToDecimal (List.replicate (13 - v.length) '0' ++ v) := by
  have hlt : binaryToDecimal v < 2 ^ 13 :=
    (binaryToDecimal_lt_two_pow_length v).trans_le (Nat.pow_le_pow_right Nat.two_pos h)
  rw [binaryToDecimal_replicate_zero_append, ← BitVec.toNat_inj, BitVec.toNat_ofNat, Nat.mod_eq_of_lt hlt, eq_comm]

/-- R57: an accepted line is what the format says. Digits hold no comma, so the two fields are the line's two pieces. -/
theorem parseLine_eq_ok_iff_lineSays (line : List Char) (n : Nat) (w : Word) :
    parseLine line = .ok (n, w) ↔ lineSays line n w := by
  rw [parseLine_eq_ok_iff, lineSays]
  refine exists_congr fun a => exists_congr fun v => ?_
  rw [splitText_eq_pair_iff, decimalValue_eq_some_iff]
  constructor
  · rintro ⟨⟨hline, -, -⟩, ⟨hne, hdigits, hn⟩, hrange, ⟨hv, hbits⟩, hlen, hw⟩
    exact ⟨hline, hne, hdigits, hn, Nat.le_of_lt_succ hrange, List.length_pos_iff.mpr hv, hlen,
      fun c hc => (isBit_iff c).mp (hbits c hc), (ofNat_binaryToDecimal_eq_iff hlen w).mp hw⟩
  · rintro ⟨hline, hne, hdigits, hn, hrange, hv, hlen, hbits, hw⟩
    have hcommaAddress : ',' ∉ a := fun hc => absurd (hdigits _ hc) (by decide)
    have hcommaValue : ',' ∉ v := fun hc => absurd (hbits _ hc) (by decide)
    exact ⟨⟨hline, hcommaAddress, hcommaValue⟩, ⟨hne, hdigits, hn⟩, Nat.lt_succ_of_le hrange,
      ⟨List.length_pos_iff.mp hv, fun c hc => (isBit_iff c).mpr (hbits c hc)⟩, hlen,
      (ofNat_binaryToDecimal_eq_iff hlen w).mpr hw⟩

/-! ### The image of a text -/

/-- The non-empty lines of `ls`, numbered from `n`. -/
def numberedLines (n : Nat) (ls : List (List Char)) : List (Nat × List Char) :=
  (ls.zipIdx n).filterMap fun p => if p.1.isEmpty then none else some (p.2, p.1)

theorem numberedLines_cons (n : Nat) (l : List Char) (ls : List (List Char)) :
    numberedLines n (l :: ls) =
      if l.isEmpty then numberedLines (n + 1) ls else (n, l) :: numberedLines (n + 1) ls := by
  by_cases h : l = [] <;> simp [numberedLines, h]

/-- Numbered lines without a header in first place (log entry 19). -/
def dropHeader : List (Nat × List Char) → List (Nat × List Char)
  | [] => []
  | l :: ls => if isHeader l.2 then ls else l :: ls

theorem dataLines_eq (text : List Char) : dataLines text = dropHeader (numberedLines 1 (splitText '\n' text)) := by
  rw [dataLines, textLines, ← numberedLines]
  cases numberedLines 1 (splitText '\n' text) <;> rfl

/-- The image of numbered data lines, or the error of the first malformed one. -/
def parseData : List (Nat × List Char) → Except CsvError Image
  | [] => .ok []
  | l :: ls =>
    match parseLine l.2 with
    | .error e => .error ⟨l.1, e⟩
    | .ok p =>
      match parseData ls with
      | .error e => .error e
      | .ok ps => .ok (p :: ps)

/-- A data line, read as such: its error, or its pair before the rest of the image. -/
theorem parseLines_cons_eq {n : Nat} {header : Bool} {l : List Char} {ls : List (List Char)}
    {rest : List (Nat × List Char)} (hl : l.isEmpty = false) (hh : (header && isHeader l) = false)
    (hrest : parseLines (n + 1) false ls = parseData rest) :
    parseLines n header (l :: ls) = parseData ((n, l) :: rest) := by
  cases hp : parseLine l with
  | error r => simp [parseLines, parseData, hl, hh, hp]
  | ok p => cases hd : parseData rest <;> simp [parseLines, parseData, hl, hh, hp, hrest, hd]

theorem parseLines_false_eq (n : Nat) (ls : List (List Char)) :
    parseLines n false ls = parseData (numberedLines n ls) := by
  induction ls generalizing n with
  | nil => rfl
  | cons l ls ih =>
    rw [numberedLines_cons]
    cases hl : l.isEmpty with
    | true => simp [parseLines, hl, ih]
    | false => exact parseLines_cons_eq hl rfl (ih (n + 1))

/-- While a header may still come, the first non-empty line is dropped if it is one (log entry 19). -/
theorem parseLines_true_eq (n : Nat) (ls : List (List Char)) :
    parseLines n true ls = parseData (dropHeader (numberedLines n ls)) := by
  induction ls generalizing n with
  | nil => rfl
  | cons l ls ih =>
    rw [numberedLines_cons]
    cases hl : l.isEmpty with
    | true => simp [parseLines, hl, ih]
    | false =>
      cases hh : isHeader l with
      | true => simp [parseLines, dropHeader, hl, hh, parseLines_false_eq]
      | false =>
        rw [parseLines_cons_eq (header := true) hl hh (parseLines_false_eq (n + 1) ls)]
        simp [dropHeader, hh]

theorem parseCsv_eq (text : List Char) : parseCsv text = parseData (dataLines text) := by
  rw [parseCsv, parseLines_true_eq, dataLines_eq]

theorem parseData_cons_of_error {l : Nat × List Char} {r : LineError} (h : parseLine l.2 = .error r)
    (ls : List (Nat × List Char)) : parseData (l :: ls) = .error ⟨l.1, r⟩ := by
  simp [parseData, h]

theorem parseData_cons_of_ok {l : Nat × List Char} {p : Nat × Word} (h : parseLine l.2 = .ok p)
    (ls : List (Nat × List Char)) : parseData (l :: ls) = (parseData ls).map (p :: ·) := by
  cases hd : parseData ls <;> simp [parseData, h, hd, Except.map]

/-- The lines are all accepted, and the image is their pairs. -/
theorem parseData_eq_ok_iff (ls : List (Nat × List Char)) (image : Image) :
    parseData ls = .ok image ↔ ls.map (fun l => parseLine l.2) = image.map Except.ok := by
  induction ls generalizing image with
  | nil => cases image <;> simp [parseData]
  | cons l ls ih =>
    cases h : parseLine l.2 with
    | error r => cases image <;> simp [parseData_cons_of_error h, h]
    | ok p =>
      rw [parseData_cons_of_ok h]
      cases image with
      | nil => cases parseData ls <;> simp [Except.map]
      | cons q image =>
        have hmap : (parseData ls).map (p :: ·) = .ok (q :: image) ↔ p = q ∧ parseData ls = .ok image := by
          cases parseData ls <;> simp [Except.map]
        simp [hmap, ih, h]

/-- The error `e` is that of line `l`, and the lines `before` it are accepted. -/
def FirstMalformed (e : CsvError) (before : List (Nat × List Char)) (l : Nat × List Char) : Prop :=
  (∀ p ∈ before, ∃ v, parseLine p.2 = .ok v) ∧ parseLine l.2 = .error e.reason ∧ l.1 = e.line

theorem firstMalformed_nil_iff (e : CsvError) (l : Nat × List Char) :
    FirstMalformed e [] l ↔ parseLine l.2 = .error e.reason ∧ l.1 = e.line := by
  simp [FirstMalformed]

theorem firstMalformed_cons_iff (e : CsvError) (a : Nat × List Char) (before : List (Nat × List Char))
    (l : Nat × List Char) :
    FirstMalformed e (a :: before) l ↔ (∃ v, parseLine a.2 = .ok v) ∧ FirstMalformed e before l := by
  simp [FirstMalformed, and_assoc]

/-- An element of a list and what is before it: the first one, or one of the rest. -/
theorem exists_append_cons_of_cons_iff {α : Type} {a : α} {ls : List α} {P : List α → α → Prop} :
    (∃ before l rest, a :: ls = before ++ l :: rest ∧ P before l) ↔
      P [] a ∨ ∃ before l rest, ls = before ++ l :: rest ∧ P (a :: before) l := by
  constructor
  · rintro ⟨_ | ⟨b, before⟩, l, rest, h, hP⟩ <;> cases h
    · exact .inl hP
    · exact .inr ⟨before, l, rest, rfl, hP⟩
  · rintro (hP | ⟨before, l, rest, rfl, hP⟩)
    · exact ⟨[], a, ls, rfl, hP⟩
    · exact ⟨a :: before, l, rest, rfl, hP⟩

/-- The first malformed line is named, all before it being accepted. -/
theorem parseData_eq_error_iff (ls : List (Nat × List Char)) (e : CsvError) :
    parseData ls = .error e ↔ ∃ before l rest, ls = before ++ l :: rest ∧ FirstMalformed e before l := by
  induction ls with
  | nil => simp [parseData]
  | cons l ls ih =>
    obtain ⟨line, reason⟩ := e
    rw [exists_append_cons_of_cons_iff, firstMalformed_nil_iff]
    simp only [firstMalformed_cons_iff]
    cases h : parseLine l.2 with
    | error r => simp [parseData_cons_of_error h, and_comm]
    | ok p =>
      have hmap : (parseData ls).map (p :: ·) = .error ⟨line, reason⟩ ↔ parseData ls = .error ⟨line, reason⟩ := by
        cases parseData ls <;> simp [Except.map]
      rw [parseData_cons_of_ok h, hmap, ih]
      simp

/-! ### Loading a text -/

/-- R57: the addresses of a parsed image are in the program space, as each of its lines says. -/
theorem forall_le_of_parseCsv_eq_ok {text : List Char} {image : Image} (h : parseCsv text = .ok image) :
    ∀ p ∈ image, p.1 ≤ 999 := by
  rintro ⟨n, w⟩ hp
  rw [parseCsv_eq, parseData_eq_ok_iff] at h
  have hmem : Except.ok (n, w) ∈ (dataLines text).map fun l => parseLine l.2 := h ▸ List.mem_map_of_mem hp
  obtain ⟨l, -, hl⟩ := List.mem_map.mp hmem
  obtain ⟨-, -, -, -, -, -, hle, -⟩ := (parseLine_eq_ok_iff_lineSays l.2 n w).mp hl
  exact hle

theorem mem_of_mem_dropHeader {l : Nat × List Char} {ls : List (Nat × List Char)} (h : l ∈ dropHeader ls) : l ∈ ls := by
  cases ls with
  | nil => exact h
  | cons m ms =>
    rw [dropHeader] at h
    split at h
    · exact List.mem_cons_of_mem m h
    · exact h

/-- The number of a data line is that of a line of the text. -/
theorem mem_dataLines_number {text : List Char} {l : Nat × List Char} (h : l ∈ dataLines text) :
    1 ≤ l.1 ∧ l.1 ≤ (splitText '\n' text).length := by
  rw [dataLines_eq] at h
  have hnumbered := mem_of_mem_dropHeader h
  simp only [numberedLines, List.mem_filterMap] at hnumbered
  obtain ⟨⟨piece, n⟩, hmem, hsome⟩ := hnumbered
  split at hsome
  · cases hsome
  · cases hsome
    have hbounds := List.mem_zipIdx hmem
    omega

/-- Settles O54: the lines by `lineSays`, the text by its data lines. -/
theorem csvLoadIsTheLoadOfItsImage : Obligations.CsvLoadIsTheLoadOfItsImage := by
  refine ⟨parseLine_eq_ok_iff_lineSays, fun s text => ⟨fun image => ?image, fun e => ?error, fun image h => ?loads,
    fun e h => ?fails⟩⟩
  case image => rw [parseCsv_eq, parseData_eq_ok_iff]
  case error =>
    rw [parseCsv_eq, parseData_eq_error_iff]
    rfl
  case loads =>
    have hle := forall_le_of_parseCsv_eq_ok h
    exact ⟨hle, _, State.load_of_forall_le hle, by simp only [State.loadCsv, h]⟩
  case fails =>
    obtain ⟨before, l, rest, hlines, -, -, hline⟩ := (parseData_eq_error_iff _ e).mp ((parseCsv_eq text).symm.trans h)
    have hmem : l ∈ dataLines text := by simp [hlines]
    exact ⟨by simp only [State.loadCsv, h], hline ▸ mem_dataLines_number hmem⟩

end Sys2Proof.Machine
end

section
/-! PROOFS. The fine granularity (44_microsteps.md R101 to R104): a phase taken in micro-steps has the coarse tick's
outcome and leaves what it leaves, and no micro-step but the first of a fetch can be a service. -/

namespace Sys2Proof.Machine

/-! ### Services -/

/-- Settles O57: a fine tick is a service under that condition alone, and a micro-step leaves the interrupt controller
alone. -/
theorem microStepsAreNotInterrupted : Obligations.MicroStepsAreNotInterrupted := by
  intro μ s t h
  refine ⟨fun ⟨hp, hq, hc⟩ => ?service, fun hno => ?other⟩
  case service =>
    cases (fineTick_service μ (s.serviceDue_iff.mpr ⟨hp, hq⟩) hc).symm.trans h
    rfl
  case other =>
    have hmicro : s.serviceDue = false ∨ s.cursor ≠ 0 := by
      by_contra hdue
      obtain ⟨hdue, hc⟩ := not_or.mp hdue
      obtain ⟨hp, hq⟩ := s.serviceDue_iff.mp (eq_true_of_ne_false hdue)
      exact hno ⟨hp, hq, not_not.mp hc⟩
    rw [fineTick_microStep μ hmicro] at h
    rcases microStep_cases (μ.transfers s) s with ⟨-, e⟩ | ⟨u, -, -, e⟩ | ⟨u, -, -, e⟩
    · exact finishPhase_controller (e.symm.trans h)
    · cases e.symm.trans h
      exact ⟨rfl, rfl⟩
    · exact finishPhase_controller (s := s.transfer u) (e.symm.trans h)

/-! ### Running several micro-steps -/

theorem runWith_one (f : State → Host.Outcome State Fault Refusal) (s : State) : runWith f 1 s = f s := by
  unfold runWith
  cases f s <;> rfl

/-- One tick more than a run that answers a next state. -/
theorem runWith_succ {f : State → Host.Outcome State Fault Refusal} {n : Nat} {s t : State}
    (h : runWith f n s = .next t) : runWith f (n + 1) s = f t := by
  induction n generalizing s with
  | zero =>
    cases h
    exact runWith_one f _
  | succ n ih =>
    rw [runWith] at h
    rw [runWith]
    cases hs : f s with
    | next u => rw [hs] at h; exact ih h
    | fault r => rw [hs] at h; cases h
    | refused r => rw [hs] at h; cases h

theorem microStep_of_lt {ts : List Transfer} {s : State} {t : Transfer} (ht : ts[s.cursor]? = some t)
    (h : s.cursor + 1 < ts.length) :
    microStep ts s = .next (State.emit { s.transfer t with cursor := s.cursor + 1 } .micro) := by
  simp only [microStep, ht, if_pos h]

theorem microStep_of_last {ts : List Transfer} {s : State} {t : Transfer} (ht : ts[s.cursor]? = some t)
    (h : s.cursor + 1 = ts.length) : microStep ts s = finishPhase (s.transfer t) := by
  simp only [microStep, ht, if_neg h.not_lt]

/-- `s` with another cursor and trace, all in which a fine engine within a phase differs from its transfers' work. -/
def State.atCursor (s : State) (c : Nat) (es : List TraceEvent) : State := { s with cursor := c, trace := es }

@[simp] theorem State.atCursor_phase (s : State) (c : Nat) (es : List TraceEvent) :
    (s.atCursor c es).phase = s.phase := rfl

@[simp] theorem State.atCursor_operand (s : State) (c : Nat) (es : List TraceEvent) (x : Addr) :
    (s.atCursor c es).operand x = s.operand x := rfl

/-- The state after micro-steps that performed the transfers `ts` and ended no phase. -/
def State.afterTransfers (s : State) (ts : List Transfer) : State :=
  (ts.foldl State.transfer s).atCursor ts.length (s.trace ++ List.replicate ts.length TraceEvent.micro)

theorem State.foldl_transfer_frame (s : State) (ts : List Transfer) :
    (ts.foldl State.transfer s).phase = s.phase ∧ (ts.foldl State.transfer s).pending = s.pending := by
  induction ts generalizing s with
  | nil => exact ⟨rfl, rfl⟩
  | cons t ts ih => exact ih (s.transfer t)

theorem State.foldl_transfer_eq_self {s : State} {ts : List Transfer} (h : ∀ t ∈ ts, s.transfer t = s) :
    ts.foldl State.transfer s = s := by
  induction ts with
  | nil => rfl
  | cons t ts ih =>
    obtain ⟨ht, hts⟩ := List.forall_mem_cons.mp h
    rw [List.foldl_cons, ht, ih hts]

theorem State.foldl_transfer_ir {ts : List Transfer} (h : ∀ t ∈ ts, ∀ s : State, (t s).ir = s.ir) (s : State) :
    (ts.foldl State.transfer s).ir = s.ir := by
  induction ts generalizing s with
  | nil => rfl
  | cons t ts ih =>
    obtain ⟨ht, hts⟩ := List.forall_mem_cons.mp h
    exact (ih hts (s.transfer t)).trans (ht s.dataView)

theorem State.afterTransfers_nil {s : State} (h : s.cursor = 0) : s.afterTransfers [] = s := by
  cases s
  cases h
  simp [State.afterTransfers, State.atCursor]

/-- One transfer more moves the cursor on and emits its tag. -/
theorem State.afterTransfers_concat (s : State) (ts : List Transfer) (t : Transfer) :
    s.afterTransfers (ts ++ [t]) =
      State.emit { (s.afterTransfers ts).transfer t with cursor := (s.afterTransfers ts).cursor + 1 } .micro := by
  simp only [State.afterTransfers, State.atCursor, State.transfer_atCursor, State.emit, List.foldl_append,
    List.length_append, List.length_singleton, List.replicate_succ', List.append_assoc]
  rfl

theorem Micro.transfers_congr (μ : Micro) {s u : State} (hphase : u.phase = s.phase)
    (hir : s.phase = .execute → u.ir = s.ir) : μ.transfers u = μ.transfers s := by
  unfold Micro.transfers
  rw [hphase]
  cases hp : s.phase with
  | execute => exact congrArg μ.execute (hir hp)
  | _ => rfl

section
variable {μ : Micro} (hmicroIr : ∀ op : Opcode, ∀ t ∈ μ.execute op, ∀ s : State, (t s).ir = s.ir)
include hmicroIr

/-- Within a phase the micro-steps go on with the transfers it began with: none in phase execute writes `IR`. -/
theorem Micro.transfers_afterTransfers (s : State) {ts : List Transfer} (hts : ∀ t ∈ ts, t ∈ μ.transfers s) :
    μ.transfers (s.afterTransfers ts) = μ.transfers s := by
  refine μ.transfers_congr (s.foldl_transfer_frame ts).1 fun hp => ?_
  refine State.foldl_transfer_ir (fun t ht => hmicroIr s.ir t ?_) s
  have hmem := hts t ht
  rwa [Micro.transfers, hp] at hmem

/-- A tick between the first and the last transfer is the next micro-step. -/
theorem fineTick_afterTransfers {s : State} (hdue : s.serviceDue = false) {ts : List Transfer}
    (hts : ∀ t ∈ ts, t ∈ μ.transfers s) :
    fineTick μ (s.afterTransfers ts) = microStep (μ.transfers s) (s.afterTransfers ts) := by
  obtain ⟨hphase, hpending⟩ := s.foldl_transfer_frame ts
  have hdue' : (s.afterTransfers ts).serviceDue = false := by
    rw [← hdue]
    simp only [State.serviceDue, State.afterTransfers, State.atCursor, hphase, hpending]
  rw [fineTick_microStep μ (.inl hdue'), Micro.transfers_afterTransfers hmicroIr s hts]

/-- R102: before the last transfer, each micro-step performs one. -/
theorem runWith_fineTick_init {s : State} (hdue : s.serviceDue = false) (hc : s.cursor = 0)
    {init rest : List Transfer} (hts : μ.transfers s = init ++ rest) (hrest : rest ≠ []) :
    runWith (fineTick μ) init.length s = .next (s.afterTransfers init) := by
  induction init using List.reverseRecOn generalizing rest with
  | nil => rw [State.afterTransfers_nil hc]; rfl
  | append_singleton init t ih =>
    have hsplit : μ.transfers s = init ++ (t :: rest) := by rw [hts, List.append_assoc, List.singleton_append]
    have hmore : init.length + 1 < (μ.transfers s).length := by
      simp [hsplit, List.length_pos_iff.mpr hrest]
    have htransfer : (μ.transfers s)[init.length]? = some t := by simp [hsplit]
    rw [List.length_append, List.length_singleton, runWith_succ (ih hsplit (List.cons_ne_nil t rest)),
      fineTick_afterTransfers hmicroIr hdue (fun u hu => by simp [hsplit, hu]), State.afterTransfers_concat]
    exact microStep_of_lt htransfer hmore

/-- R103: the last micro-step of a phase finishes it after its transfer. -/
theorem fineTick_last {s : State} (hdue : s.serviceDue = false) {init : List Transfer} {t : Transfer}
    (hts : μ.transfers s = init ++ [t]) :
    fineTick μ (s.afterTransfers init) = finishPhase
      (((μ.transfers s).foldl State.transfer s).atCursor init.length (s.afterTransfers init).trace) := by
  have htransfer : (μ.transfers s)[init.length]? = some t := by simp [hts]
  have hlast : init.length + 1 = (μ.transfers s).length := by simp [hts]
  rw [fineTick_afterTransfers hmicroIr hdue (fun u hu => by simp [hts, hu]), microStep_of_last htransfer hlast, hts,
    List.foldl_append]
  rfl

/-- The micro-steps of a phase: all but the last, `n` of them, lead to `u`, and the last finishes the phase with all its
transfers performed. Where every transfer writes nothing, `u` has the registers and memory of `s`. -/
theorem exists_last_microStep {s : State} (hdue : s.serviceDue = false) (hc : s.cursor = 0) :
    ∃ (n : Nat) (u : State) (es : List TraceEvent),
      max 1 (μ.transfers s).length = n + 1 ∧ (μ.transfers s = [] → n = 0) ∧ runWith (fineTick μ) n s = .next u ∧
      fineTick μ u = finishPhase (((μ.transfers s).foldl State.transfer s).atCursor n es) ∧
      ((∀ t ∈ μ.transfers s, s.transfer t = s) → u.dataView = s.dataView) := by
  rcases (μ.transfers s).eq_nil_or_concat' with hts | ⟨init, t, hts⟩
  · have htick : fineTick μ s = finishPhase s := by
      rw [fineTick_microStep μ (.inl hdue), hts, microStep, List.getElem?_nil]
    refine ⟨0, s, s.trace, by simp [hts], fun _ => rfl, rfl, ?_, fun _ => rfl⟩
    rw [htick, hts, ← hc]
    rfl
  · refine ⟨init.length, s.afterTransfers init, _, by simp [hts], fun h => by simp [hts] at h,
      runWith_fineTick_init hmicroIr hdue hc hts (List.cons_ne_nil t []), fineTick_last hmicroIr hdue hts,
      fun hnothing => ?_⟩
    have hfold : init.foldl State.transfer s = s :=
      State.foldl_transfer_eq_self fun u hu => hnothing u (by simp [hts, hu])
    simp only [State.afterTransfers, hfold]
    rfl

end

/-! ### The end of a phase -/

/-- No instruction's effect writes the registers that say which instruction it is, nor the phase (R66, R73). -/
theorem Instr.effect_frame (i : Instr) (s : State) :
    (Instr.effect i s).ir = s.ir ∧ (Instr.effect i s).mar = s.mar ∧ (Instr.effect i s).phase = s.phase := by
  cases i with
  | div x =>
    rw [Instr.effect]
    split <;> exact ⟨rfl, rfl, rfl⟩
  | st x =>
    rw [Instr.effect, effectSt_eq]
    split <;> exact ⟨rfl, rfl, rfl⟩
  | _ => exact ⟨rfl, rfl, rfl⟩

/-- R101: the effect of an instruction and then what rides on its last micro-step are its execute step, whatever the
cursor and the trace. -/
theorem finishExecute_effect {i : Instr} {s : State} (hi : decodeFields s.ir s.mar = .instr i) (c : Nat)
    (es : List TraceEvent) :
    mapNext State.withoutTrace (finishExecute ((Instr.effect i s).atCursor c es)) =
      mapNext State.withoutTrace (exec i s) := by
  obtain ⟨hir, hmar, -⟩ := Instr.effect_frame i s
  have hdecode : decodeFields ((Instr.effect i s).atCursor c es).ir ((Instr.effect i s).atCursor c es).mar = .instr i :=
    hir.symm ▸ hmar.symm ▸ hi
  simp only [finishExecute, hdecode]
  cases i with
  | div x =>
    have hoperand : (effectDiv x s).operand x = s.operand x := rfl
    by_cases hcheck : divisorIsZero (s.operand x) = true
    · simp only [exec, execDiv, Instr.effect, State.atCursor_operand, if_pos hcheck]
      rfl
    · simp only [exec, execDiv, Instr.effect, State.atCursor_operand, hoperand, if_neg hcheck]
      rfl
  | st x =>
    have haddr : effectiveAddr x = x := rfl
    by_cases hx : x.toNat < Config.memSize
    · simp only [haddr, Instr.effect, State.memWrite_of_lt _ hx, effectSt_eq, if_pos hx, exec_st_of_lt hx]
      rfl
    · have hfault := storeOutOfRangeFaults s x (Nat.not_lt.mp hx)
      simp only [haddr, State.memWrite, if_neg hx, hfault.1]
  | _ => rfl

/-- R101: the same for any phase. Only a halted core keeps its cursor. -/
theorem finishPhase_phaseEffect (s : State) {c : Nat} (hc : s.phase = .halted → c = s.cursor) (es : List TraceEvent) :
    mapNext State.withoutTrace (finishPhase (s.phaseEffect.atCursor c es)) =
      mapNext State.withoutTrace (engineStep s) := by
  cases hp : s.phase with
  | execute =>
    obtain ⟨i, hi, -, -, hexec⟩ := executeStep_eq_exec s
    obtain ⟨-, -, hphase⟩ := Instr.effect_frame i s
    have heffect : s.phaseEffect = Instr.effect i s := by simp only [State.phaseEffect, hp, wholeEffect, hi]
    simp only [heffect, finishPhase, engineStep, State.atCursor_phase, hphase, hp, hexec]
    exact finishExecute_effect hi c es
  | halted =>
    cases hc hp
    have heffect : s.phaseEffect = s := by simp only [State.phaseEffect, hp]
    simp only [heffect, finishPhase, engineStep, State.atCursor_phase, hp]
    rfl
  | idle =>
    have heffect : s.phaseEffect = s := by simp only [State.phaseEffect, hp]
    simp only [heffect, finishPhase, engineStep, State.atCursor_phase, hp]
    rfl
  | fetch =>
    have heffect : s.phaseEffect = (s.setMar s.pc).setMbr (s.memRead s.pc) := by simp only [State.phaseEffect, hp]
    simp only [heffect, finishPhase, engineStep, State.atCursor_phase, State.setMbr_phase, State.setMar_phase, hp]
    rfl
  | decode =>
    have heffect : s.phaseEffect = splitMbr s := by simp only [State.phaseEffect, hp]
    simp only [heffect, finishPhase, engineStep, State.atCursor_phase, splitMbr, State.setIr_phase, State.setMar_phase,
      hp]
    rfl

/-! ### A whole phase -/

theorem coarseTick_of_not_due {s : State} (hdue : s.serviceDue = false) : coarseTick s = engineStep s := by
  rw [coarseTick, hdue]
  rfl

theorem exists_next_of_mapNext_eq_next {f : State → State} {o : Host.Outcome State Fault Refusal} {t : State}
    (h : mapNext f o = .next t) : ∃ v, o = .next v ∧ f v = t := by
  cases o <;> cases h
  exact ⟨_, rfl, rfl⟩

theorem stateAfter_one_of_next {f : State → Host.Outcome State Fault Refusal} {s t : State} (h : f s = .next t) :
    stateAfter f 1 s = t :=
  stateAfter_of_next ((runWith_one f s).trans h)

/-- A tick that answers no state leaves the one it was taken from (R114). -/
theorem stateAfter_one_of_no_next {f : State → Host.Outcome State Fault Refusal} {s : State} (h : ∀ t, f s ≠ .next t) :
    stateAfter f 1 s = s := by
  cases hf : f s with
  | next t => exact absurd hf (h t)
  | fault r => exact stateAfter_fault hf
  | refused r => simp [stateAfter, hf]

/-- Two ticks with the same outcome, the trace apart, leave the same registers and memory, if the states they were taken
from agree on them where the ticks answer none. -/
theorem stateAfter_one_dataView_eq {f g : State → Host.Outcome State Fault Refusal} {u s : State}
    (h : mapNext State.withoutTrace (f u) = mapNext State.withoutTrace (g s))
    (hstop : (∀ t, g s ≠ .next t) → u.dataView = s.dataView) :
    (stateAfter f 1 u).dataView = (stateAfter g 1 s).dataView := by
  by_cases hg : ∃ t, g s = .next t
  · obtain ⟨t, hg⟩ := hg
    obtain ⟨v, hf, hvt⟩ := exists_next_of_mapNext_eq_next (h.trans (congrArg _ hg))
    rw [stateAfter_one_of_next hf, stateAfter_one_of_next hg]
    show v.withoutTrace.dataView = t.withoutTrace.dataView
    rw [hvt]
  · have hg : ∀ t, g s ≠ .next t := fun t e => hg ⟨t, e⟩
    have hf : ∀ v, f u ≠ .next v := by
      intro v e
      obtain ⟨t, hgt, -⟩ := exists_next_of_mapNext_eq_next (h.symm.trans (congrArg _ e))
      exact hg t hgt
    rw [stateAfter_one_of_no_next hf, stateAfter_one_of_no_next hg]
    exact hstop hg

/-- R101, R103: what binds a `MICRO` follows from its net effect: every micro-step but the last goes on, and the last
finishes the phase over the coarse effect. -/
theorem Micro.agreesWithCoarse_of_phaseEffect {μ : Micro}
    (heffect : ∀ s : State, (μ.transfers s).foldl State.transfer s = s.phaseEffect)
    (hmicroIr : ∀ op : Opcode, ∀ t ∈ μ.execute op, ∀ s : State, (t s).ir = s.ir)
    (hstore : ∀ s : State, s.storeOutOfRange → ∀ t ∈ μ.transfers s, s.transfer t = s) : μ.AgreesWithCoarse := by
  intro s hc
  cases hdue : s.serviceDue with
  | true =>
    have hticks : μ.ticksOf s = 1 := by rw [Micro.ticksOf, if_pos hdue]
    have hservice : mapNext State.withoutTrace (fineTick μ s) = mapNext State.withoutTrace (coarseTick s) := by
      rw [fineTick_service μ hdue hc, coarseTick, if_pos hdue]
    rw [hticks, runWith_one]
    exact ⟨hservice, stateAfter_one_dataView_eq hservice fun _ => rfl⟩
  | false =>
    obtain ⟨n, u, es, hlength, hempty, hrun, hlast, hnothing⟩ := exists_last_microStep hmicroIr hdue hc
    have hticks : μ.ticksOf s = n + 1 := by rw [Micro.ticksOf, hdue, ← hlength]; rfl
    have hhalted : s.phase = .halted → n = s.cursor := fun hp => by
      rw [hc]
      exact hempty (by rw [Micro.transfers, hp])
    have hphase : mapNext State.withoutTrace (fineTick μ u) = mapNext State.withoutTrace (coarseTick s) := by
      rw [hlast, heffect, coarseTick_of_not_due hdue, finishPhase_phaseEffect s hhalted]
    rw [hticks, runWith_succ hrun, stateAfter_succ hrun]
    refine ⟨hphase, stateAfter_one_dataView_eq hphase fun hno => hnothing (hstore s ?_)⟩
    rcases step_stops_or_next s with ⟨h, -⟩ | ⟨-, t, e⟩
    · exact h
    · exact absurd e (hno t)

/-! ### The decompositions of `specMicro` -/

@[simp] theorem State.transfer_marFromPc (s : State) : s.transfer marFromPc = s.setMar s.pc := rfl
@[simp] theorem State.transfer_mbrFromMem (s : State) : s.transfer mbrFromMem = s.setMbr (s.memRead s.mar) := rfl
@[simp] theorem State.transfer_marSet (s : State) : s.transfer marSet = s := rfl
@[simp] theorem State.transfer_acFromMbr (s : State) : s.transfer acFromMbr = s.setAc s.mbr := rfl
@[simp] theorem State.transfer_splitMbr (s : State) : s.transfer splitMbr = splitMbr s := rfl

/-- R80, R103: `LOAD`'s three transfers are its effect, fetch's two are fetch's, and every other phase is one transfer
or none. -/
theorem specMicro_foldl_transfer (s : State) :
    (specMicro.transfers s).foldl State.transfer s = s.phaseEffect := by
  cases hp : s.phase with
  | idle | fetch | decode | halted => simp [Micro.transfers, State.phaseEffect, specMicro, hp]
  | execute =>
    simp only [Micro.transfers, State.phaseEffect, hp, specMicro]
    split
    next hir =>
      have hdecode : decodeFields s.ir s.mar = .instr (.load s.mar) := by rw [hir]; rfl
      simp [wholeEffect, hdecode, Instr.effect, effectLoad, State.operand, effectiveAddr]
    next => exact s.transfer_wholeEffect

theorem specMicro_execute_ir (op : Opcode) : ∀ t ∈ specMicro.execute op, ∀ s : State, (t s).ir = s.ir := by
  intro t ht s
  simp only [specMicro] at ht
  split at ht
  · simp only [List.mem_cons, List.not_mem_nil, or_false] at ht
    rcases ht with rfl | rfl | rfl <;> rfl
  · obtain rfl := List.mem_singleton.mp ht
    exact wholeEffect_ir s

theorem specMicro_storeOutOfRange (s : State) (h : s.storeOutOfRange) :
    ∀ t ∈ specMicro.transfers s, s.transfer t = s := by
  have htransfers : specMicro.transfers s = [wholeEffect] := by
    obtain ⟨hp, hir, -⟩ := h
    simp only [Micro.transfers, hp, hir]
    rfl
  intro t ht
  rw [htransfers] at ht
  obtain rfl := List.mem_singleton.mp ht
  exact transfer_wholeEffect_storeOutOfRange h

/-- Settles O59: the general theorem, and what `specMicro`'s transfers do. -/
theorem anyMicroWithTheCoarseNetEffectAgreesWithCoarse :
    Obligations.AnyMicroWithTheCoarseNetEffectAgreesWithCoarse :=
  ⟨fun _ => Micro.agreesWithCoarse_of_phaseEffect, specMicro_foldl_transfer, specMicro_execute_ir,
    specMicro_storeOutOfRange⟩

/-- Settles O56: `specMicro` is one of the decompositions that O59 speaks of. -/
theorem microStepsAddUpToTheCoarseTick : Obligations.MicroStepsAddUpToTheCoarseTick :=
  Micro.agreesWithCoarse_of_phaseEffect specMicro_foldl_transfer specMicro_execute_ir specMicro_storeOutOfRange

end Sys2Proof.Machine
end
